-- ==== Sys2Proof/Word.lean ====
section
/-!
DEFINITION. The plain data types of the magpie bytecode core: instruction words, the index types that the
operand fields hold, and the tagged Value (10_state R10, R11).
-/

namespace Sys2Proof

/-- A 32-bit instruction word (30_encoding R60). -/
abbrev Word := BitVec 32

/-- A byte of a serialized code object; only loaders see bytes (20_memory R46). -/
abbrev Byte := BitVec 8

/-- The opcode byte, bits 7:0 of a word (30_encoding R61). -/
abbrev Opcode := BitVec 8

/-- A local register index, an 8-bit operand A, B or C (30_encoding R66). -/
abbrev RegIdx := BitVec 8

/-- A Method Table index: CALL's B, ENTRY, a frame's `method` (00_scope section 4, METHOD_BITS). -/
abbrev MethodIdx := BitVec 8

/-- A constant-pool index, the 16-bit operand Ax (30_encoding R63). -/
abbrev PoolIdx := BitVec 16

/-- A program counter: an unsigned 32-bit word index (10_state R23). -/
abbrev Pc := BitVec 32

/-- A Value: the 68-bit word `tag ++ payload` (10_state R11). Its two fields are kept apart, and every pair of
bit patterns is a Value, so that reserved tags and non-canonical payloads are carried unchanged (R12). -/
structure Value where
  tag     : BitVec 4
  payload : BitVec 64
  deriving DecidableEq, Repr

/-- `Nil`, the all-zero 68-bit word (10_state R11). -/
def Value.nil : Value := ⟨0, 0⟩

end Sys2Proof
end

