-- ==== Sys2Proof/Config.lean ====
section
/-!
DEFINITION. What an implementation or its host fixes before a run: the opcode map, the gating of HACK_PRINT, the byte
order of serialized images, and the contents of the three read-only stores with MAX_DEPTH (00_scope section 4,
20_memory R40 to R46, 50_host_interface R157). The spec leaves no value to be drawn, so no free value stands here.
-/

namespace Sys2Proof

/-- The five opcode numbers (00_scope R1). -/
structure OpcodeMap where
  move      : Opcode
  literal   : Opcode
  call      : Opcode
  ret       : Opcode
  hackPrint : Opcode
  deriving DecidableEq, Repr

/-- The default opcode map (30_encoding R74). -/
def OpcodeMap.default : OpcodeMap :=
  { move := 0x02, literal := 0x03, call := 0x04, ret := 0x05, hackPrint := 0x06 }

/-- Byte order of a serialized instruction word, for loaders only (20_memory R46). -/
inductive ByteOrder where
  | littleEndian
  | bigEndian
  deriving DecidableEq, Repr

/-- One Method Table entry: instruction sequence, register count, constant pool reference (20_memory R43). -/
structure CodeObject where
  code     : List Word
  regCount : Nat
  poolId   : Nat
  deriving DecidableEq, Repr

/-- What the host loads between runs: the Method Table with the code, the constant pools, and the configured
maximum depth of the Call Stack (50_host_interface R157). -/
structure Image where
  methodTable : List CodeObject
  pools       : List (List Value)
  maxDepth    : Nat
  deriving DecidableEq, Repr

/-- The configuration of an instance (00_scope section 4). -/
structure Config where
  opcodes          : OpcodeMap
  hackPrintPresent : Bool
  byteOrder        : ByteOrder
  image            : Image
  deriving DecidableEq, Repr

/-- DESIGN CHOICE, log entry 4: an instance into which nothing has been loaded has an empty Method Table, no pool, and
the least MAX_DEPTH that 00_scope R2 admits. Safe or unsafe: see the entry. -/
def Image.empty : Image := { methodTable := [], pools := [], maxDepth := 1 }

/-- The defaults of 00_scope section 4, with nothing loaded. -/
def Config.default : Config :=
  { opcodes := OpcodeMap.default, hackPrintPresent := true, byteOrder := .littleEndian, image := Image.empty }

end Sys2Proof
end

