-- ==== Sys2Proof/Syntax.lean ====
section
/-!
DEFINITION. The instruction set: the one inductive `Instr`, one constructor per row of spec/opcode_table.json, the
decoder's closed result set (30_encoding R75), and the assembler's lines (30_encoding R79).
-/

namespace Sys2Proof

/-- The five instructions with the operands each one uses (30_encoding R74, R75). -/
inductive Instr where
  /-- MOVE(from:A, to:B), 41_data_movement R110. -/
  | move (src dst : RegIdx)
  /-- LITERAL(index:Ax, dest:C), 41_data_movement R112. -/
  | literal (index : PoolIdx) (dest : RegIdx)
  /-- CALL(arg:A, method:B, result:C), 42_call_return R121. -/
  | call (arg : RegIdx) (method : MethodIdx) (result : RegIdx)
  /-- RETURN(result:A), 42_call_return R125. -/
  | ret (result : RegIdx)
  /-- HACK_PRINT(reg:A), 43_debug R140. -/
  | hackPrint (reg : RegIdx)
  deriving DecidableEq, Repr

/-- The closed set of decoder results: an instruction, or `Invalid(op)` (30_encoding R75). -/
inductive Decoded where
  | instr (i : Instr)
  | invalid (op : Opcode)
  deriving DecidableEq, Repr

/-- The mnemonics of the assembler notation (30_encoding R79). -/
inductive Mnemonic where
  | move
  | literal
  | call
  | ret
  | hackPrint
  deriving DecidableEq, Repr

/-- An operand as an assembler line writes it: `rN`, or the bare decimal number `N` (30_encoding R79). A number is an
integer because a line may hold one that does not fit, which is then rejected (30_encoding R73). -/
inductive AsmOperand where
  | r (n : Int)
  | n (n : Int)
  deriving DecidableEq, Repr

/-- One assembler line `MNEMONIC(operand, ...)`, after tokenising (30_encoding R79; log entry 15). -/
structure AsmLine where
  mnemonic : Mnemonic
  operands : List AsmOperand
  deriving DecidableEq, Repr

end Sys2Proof
end

