-- ==== Sys2Proof/Machine/State.lean ====
section
/-!
DEFINITION. The state of one instance as plain data (10_state), the reasons a step of the model can stop, and the
state after reset (10_state R34).
-/

namespace Sys2Proof.Machine

/-- STATUS (10_state R27). Code 3 is written by no rule, so it has no constructor. -/
inductive Status where
  | halted
  | running
  | faulted
  deriving DecidableEq, Repr

/-- The fault causes (60_exceptions R170). TypeMismatch is reserved and raised by no rule (R178). -/
inductive Cause where
  | invalidOpcode
  | registerOutOfBounds
  | constantIndexOutOfBounds
  | methodIndexOutOfBounds
  | stackOverflow
  | typeMismatch
  | pcOutOfBounds
  deriving DecidableEq, Repr

/-- The fault record FAULT_CAUSE, FAULT_LEVEL, FAULT_METHOD, FAULT_PC (10_state R30); cause `none` is code 0. -/
structure FaultRecord where
  cause  : Option Cause
  level  : Nat
  method : MethodIdx
  pc     : Pc
  deriving DecidableEq, Repr

/-- The cleared fault record (10_state R34, 50_host_interface R153). -/
def FaultRecord.clear : FaultRecord := { cause := none, level := 0, method := 0, pc := 0 }

/-- A frame record (10_state R20). -/
structure Frame where
  method : MethodIdx
  pc     : Pc
  ret    : RegIdx
  wbase  : Nat
  deriving DecidableEq, Repr

/-- What a record that no push has written reads as. DESIGN CHOICE, log entry 3: the spec leaves it unspecified
(10_state R34). -/
def Frame.blank : Frame := { method := 0, pc := 0, ret := 0, wbase := 0 }

/-- What the host's side of the ports shows at one step boundary (50_host_interface R150, R161). The form is the model's
own: DESIGN CHOICE, log entry 5. -/
inductive HostEvent where
  /-- No port event: the engine has the step. -/
  | quiet
  /-- `reset` is asserted (50_host_interface R156). -/
  | reset
  /-- `start` is asserted with ENTRY and ARG (50_host_interface R152). -/
  | start (entry : MethodIdx) (arg : Value)
  /-- The host replaces the contents of the read-only stores and MAX_DEPTH (50_host_interface R157). -/
  | load (image : Image)
  deriving DecidableEq, Repr

/-- The state of one instance, with its configuration (log entry 1) and the host's coming events (log entry 5). -/
structure State where
  /-- Opcode map, gating, loader byte order, and the loaded stores with MAX_DEPTH. -/
  cfg        : Config
  /-- ARENA: slots and their Values, canonical; an unlisted slot reads as Nil (10_state R14; log entry 2). -/
  arena      : List (Nat × Value)
  /-- FRAME: levels and their records, canonical; an unlisted level reads as `Frame.blank` (10_state R21; log entry 3). -/
  frames     : List (Nat × Frame)
  /-- DEPTH (10_state R28). -/
  depth      : Nat
  /-- STATUS (10_state R27). -/
  status     : Status
  /-- RESULT (10_state R29). -/
  result     : Value
  /-- The fault record (10_state R30). -/
  fault      : FaultRecord
  /-- DEBUG_TRACE, oldest first (10_state R31). -/
  debugTrace : List Value
  /-- The host's events at the coming step boundaries, next first; none are left when it is empty. -/
  inputs     : List HostEvent
  deriving DecidableEq, Repr

/-- Why a step of the MODEL stops. No rule of the spec leads here: a fault of the hardware is a next state
(60_exceptions R176). Each reason stands for states that 10_state R33 excludes (log entry 7). -/
inductive Fault where
  /-- Raised by the step and by every meaning when STATUS is Running and DEPTH is 0, which R33 item 1 excludes. Safe. -/
  | noCurrentFrame
  /-- Raised when the `method` of a frame in use is not below MethodCount, which R33 item 5 excludes. Safe. -/
  | noCodeObject
  /-- Raised when a frame's window leaves the arena, which 10_state R15 excludes. Safe. -/
  | windowOutsideArena
  /-- Raised by RETURN when the caller-target register is not below the caller's register count, which R33 item 8
  excludes. Safe. -/
  | callerTargetOutOfBounds
  deriving DecidableEq, Repr

/-- What the model gives no meaning to. -/
inductive Refusal where
  /-- An arm of `exec` without a meaning: none is left. Safe. -/
  | notModelled (mnemonic : String)
  /-- Raised by the step, and by a load event, when the configuration breaks a bound of 00_scope R1 or R2: it is not a
  configuration of this hardware (93_implementation_defined U16; log entry 8). Safe. -/
  | notAConfiguration
  /-- Raised by a load event while STATUS is Running: the host has no such move (50_host_interface R157,
  93_implementation_defined U17; log entry 8). Safe. -/
  | loadWhileRunning
  deriving DecidableEq, Repr

/-- The outcome of a step or of a meaning. -/
abbrev Result := Host.Outcome State Fault Refusal

/-- The machine right after power-on reset (10_state R34, 70_reset_and_hazards R200). The values R34 states are STATUS,
DEPTH, RESULT, the fault record and DEBUG_TRACE; the others are the model's (log entries 2, 3, 4, 5). -/
def State.reset : State :=
  { cfg := Config.default
    arena := []
    frames := []
    depth := 0
    status := .halted
    result := Value.nil
    fault := FaultRecord.clear
    debugTrace := []
    inputs := [] }

end Sys2Proof.Machine
end

