-- ==== Sys2Proof/Machine/Stores.lean ====
section
/-!
DEFINITION. The three read-only stores and their metadata: the Method Table port, the code port and the pool port
(00_scope section 5.3, 20_memory R40 to R44, 50_host_interface R150, R151). A lookup outside its bounds is never made:
it answers `none`, and the metadata of an absent entry are 0.
-/

namespace Sys2Proof.Machine

/-- `MethodCount`. -/
def methodCount (c : Config) : Nat := c.image.methodTable.length

/-- Method Table entry `m` (20_memory R43). -/
def codeObject (c : Config) (m : MethodIdx) : Option CodeObject := c.image.methodTable[m.toNat]?

/-- `CodeLen(m)`. -/
def codeLen (c : Config) (m : MethodIdx) : Nat :=
  match codeObject c m with
  | some o => o.code.length
  | none => 0

/-- `RegCount(m)`. -/
def regCount (c : Config) (m : MethodIdx) : Nat :=
  match codeObject c m with
  | some o => o.regCount
  | none => 0

/-- `PoolOf(m)`; `none` only where there is no entry `m`. -/
def poolOf (c : Config) (m : MethodIdx) : Option Nat := (codeObject c m).map (·.poolId)

/-- `Code(m, pc)`, the only access to the code space (20_memory R41). -/
def codeWord (c : Config) (m : MethodIdx) (pc : Pc) : Option Word :=
  match codeObject c m with
  | some o => o.code[pc.toNat]?
  | none => none

/-- The pool that code object `m` uses (20_memory R42). -/
def poolFor (c : Config) (m : MethodIdx) : List Value :=
  match poolOf c m with
  | some p => (c.image.pools[p]?).getD []
  | none => []

/-- `PoolLen(PoolOf(m))`. -/
def poolLen (c : Config) (m : MethodIdx) : Nat := (poolFor c m).length

/-- `Pool(PoolOf(m), k)` (20_memory R42), the only access to a pool. -/
def poolEntry (c : Config) (m : MethodIdx) (k : PoolIdx) : Option Value := (poolFor c m)[k.toNat]?

/-- `ARENA_SLOTS = MAX_DEPTH * 256` (10_state R14). -/
def arenaSlots (c : Config) : Nat := c.image.maxDepth * 256

/-- The number of bits needed for the number `n`. -/
def bitsFor (n : Nat) : Nat := if n = 0 then 1 else Nat.log2 n + 1

/-- `DEPTH_BITS` (10_state R28). -/
def depthBits (c : Config) : Nat := bitsFor c.image.maxDepth

/-- `WB_BITS` (10_state R20). -/
def wbBits (c : Config) : Nat := bitsFor (arenaSlots c - 1)

end Sys2Proof.Machine
end

