-- ==== Sys2Proof/Machine/Flags.lean ====
section
/-!
DEFINITION. The core has no status flag, condition code or predicate register (10_state R25): no flag computation exists.
What the block compares, it compares in these unsigned comparators (40_dispatch R104); a result only steers the step and
no program can read it.
-/

namespace Sys2Proof.Machine

/-- `idx < N` fails: RegisterOutOfBounds (60_exceptions R171). -/
def regOutOfBounds (n : Nat) (i : RegIdx) : Bool := !(decide (i.toNat < n))

/-- `B < MethodCount` fails: MethodIndexOutOfBounds (60_exceptions R173); the same comparator checks ENTRY. -/
def methodOutOfBounds (c : Config) (m : MethodIdx) : Bool := !(decide (m.toNat < methodCount c))

/-- `DEPTH < MAX_DEPTH` fails: StackOverflow (60_exceptions R174). -/
def stackFull (c : Config) (depth : Nat) : Bool := !(decide (depth < c.image.maxDepth))

/-- `DEPTH = 1`: the current frame is the root frame (42_call_return R125). -/
def isRoot (depth : Nat) : Bool := depth == 1

end Sys2Proof.Machine
end

