-- ==== Sys2Proof/Machine/Store.lean ====
section
/-!
DEFINITION. Canonical sparse arrays, used for the register arena and the frame stack: cells with strictly rising indices,
none of which holds what an unlisted index reads as. Equal arrays are then equal lists.
-/

namespace Sys2Proof.Machine

/-- The element at index `a`; `d` is what an unlisted index reads as. -/
def storeRead {α : Type} (d : α) : List (Nat × α) → Nat → α
  | [], _ => d
  | (k, v) :: rest, a => if a = k then v else storeRead d rest a

/-- The array without a cell at index `a`. -/
def storeErase {α : Type} (a : Nat) : List (Nat × α) → List (Nat × α)
  | [] => []
  | (k, v) :: rest => if a = k then storeErase a rest else (k, v) :: storeErase a rest

/-- The array with the cell `(a, x)`, in its place by index. -/
def storeInsert {α : Type} (a : Nat) (x : α) : List (Nat × α) → List (Nat × α)
  | [] => [(a, x)]
  | (k, v) :: rest =>
    if a < k then (a, x) :: (k, v) :: rest
    else if a = k then (a, x) :: rest
    else (k, v) :: storeInsert a x rest

/-- Write `x` at index `a`: writing what an unlisted index reads as removes the cell. -/
def storeWrite {α : Type} [DecidableEq α] (d : α) (st : List (Nat × α)) (a : Nat) (x : α) : List (Nat × α) :=
  if x = d then storeErase a st else storeInsert a x st

/-- The canonical form. -/
abbrev StoreWf {α : Type} (d : α) (st : List (Nat × α)) : Prop :=
  st.Pairwise (fun p q => p.1 < q.1) ∧ ∀ c ∈ st, c.2 ≠ d

end Sys2Proof.Machine
end

