-- ==== Sys2Proof/Machine/Operands.lean ====
section
/-!
DEFINITION. The addressing modes: register direct by 8-bit local index within a frame's window (10_state R15, R17) and
constant pool absolute by 16-bit index (41_data_movement R112, R114).
-/

namespace Sys2Proof.Machine

/-- `FRAME[l]` (10_state R21). -/
def State.frameAt (s : State) (l : Nat) : Frame := storeRead Frame.blank s.frames l

/-- `FRAME[l] <- f`. -/
def State.setFrame (s : State) (l : Nat) (f : Frame) : State :=
  { s with frames := storeWrite Frame.blank s.frames l f }

/-- `ARENA[k]` (10_state R14). -/
def State.slot (s : State) (k : Nat) : Value := storeRead Value.nil s.arena k

/-- `ARENA[k] <- v`. -/
def State.setSlot (s : State) (k : Nat) (v : Value) : State :=
  { s with arena := storeWrite Value.nil s.arena k v }

/-- `N(l)`, the register count of the frame at level `l` (10_state R22). -/
def State.regsAt (s : State) (l : Nat) : Nat := regCount s.cfg (s.frameAt l).method

/-- The arena address of register `i` of the frame at level `l` (10_state R15; the adder of 40_dispatch R103). -/
def State.slotOf (s : State) (l : Nat) (i : RegIdx) : Nat := (s.frameAt l).wbase + i.toNat

/-- `X(l, i)` (10_state R15). -/
def State.reg (s : State) (l : Nat) (i : RegIdx) : Value := s.slot (s.slotOf l i)

/-- `X(l, i) <- v`. -/
def State.setReg (s : State) (l : Nat) (i : RegIdx) (v : Value) : State := s.setSlot (s.slotOf l i) v

/-- The level of the current frame, `DEPTH - 1`. -/
def State.top (s : State) : Nat := s.depth - 1

/-- The current frame (10_state R21). -/
def State.current (s : State) : Frame := s.frameAt s.top

/-- `x[i]` (00_scope section 5.2). -/
def State.readReg (s : State) (i : RegIdx) : Value := s.reg s.top i

/-- `x[i] <- v` (00_scope section 5.2). -/
def State.writeReg (s : State) (i : RegIdx) (v : Value) : State := s.setReg s.top i v

/-- A register operand of the current frame is out of bounds (10_state R17). -/
def State.regOutside (s : State) (i : RegIdx) : Bool := regOutOfBounds (s.regsAt s.top) i

/-- `Pool(PoolOf(FRAME[DEPTH-1].method), Ax)`, where it exists (41_data_movement R112). -/
def State.poolOperand (s : State) (k : PoolIdx) : Option Value := poolEntry s.cfg s.current.method k

end Sys2Proof.Machine
end

