-- ==== Sys2Proof/Machine/Ops.lean ====
section
/-!
DEFINITION. The named operations the instructions share: fault entry, the program-counter incrementer, frame creation,
delivery of a result, normal termination, and the debug event.
-/

namespace Sys2Proof.Machine

/-- The cause codes (60_exceptions R170). -/
def causeCode : Cause → BitVec 4
  | .invalidOpcode => 1
  | .registerOutOfBounds => 2
  | .constantIndexOutOfBounds => 3
  | .methodIndexOutOfBounds => 4
  | .stackOverflow => 5
  | .typeMismatch => 6
  | .pcOutOfBounds => 7

/-- Fault entry (60_exceptions R176): the record and STATUS are written, nothing else. There is no handler and no return
from a fault (R182), so no operation stands beside this one. -/
def State.enterFault (s : State) (c : Cause) : State :=
  { s with
    fault := { cause := some c, level := s.depth - 1, method := s.current.method, pc := s.current.pc }
    status := .faulted }

/-- `raise F` (00_scope section 5.5). -/
def raise (c : Cause) (s : State) : Result := .next (s.enterFault c)

/-- `pc <- pc + 1` in the frame at level `l` (40_dispatch R101). -/
def State.advanceAt (s : State) (l : Nat) : State :=
  s.setFrame l { s.frameAt l with pc := (s.frameAt l).pc + 1 }

/-- `pc <- pc + 1` in the current frame. -/
def State.advance (s : State) : State := s.advanceAt s.top

/-- Why the record at level `l` is no frame of this machine, if it is not one: its method or its window does not exist.
10_state R33 items 5 and 9 with R15 exclude both (log entry 7). -/
def State.frameProblem (s : State) (l : Nat) : Option Fault :=
  if methodOutOfBounds s.cfg (s.frameAt l).method then some .noCodeObject
  else if (s.frameAt l).wbase + s.regsAt l ≤ arenaSlots s.cfg then none
  else some .windowOutsideArena

/-- Run the body `k` of an instruction in the current frame; a stack with no such frame stops the model (log entry 7). -/
def inCurrentFrame (s : State) (k : Result) : Result :=
  if s.depth = 0 then .fault .noCurrentFrame
  else
    match s.frameProblem s.top with
    | some f => .fault f
    | none => k

/-- The window base of a frame pushed now (42_call_return R122; the adder of 40_dispatch R103). -/
def State.newBase (s : State) : Nat :=
  if s.depth = 0 then 0 else s.current.wbase + s.regsAt s.top

/-- `ARENA[b], ..., ARENA[b + n - 1] <- Nil`. -/
def fillNil (b : Nat) : Nat → List (Nat × Value) → List (Nat × Value)
  | 0, a => a
  | n + 1, a => storeWrite Value.nil (fillNil b n a) (b + n) Value.nil

/-- A fresh window of `n` registers at `b`: the argument in register 0, Nil in the others; with no register the argument
is dropped (42_call_return R122). -/
def initWindow (b n : Nat) (v : Value) (a : List (Nat × Value)) : List (Nat × Value) :=
  if n = 0 then a else storeWrite Value.nil (fillNil (b + 1) (n - 1) a) b v

/-- `push_frame(m, r, v)` (42_call_return R122). -/
def State.pushFrame (s : State) (m : MethodIdx) (r : RegIdx) (v : Value) : State :=
  { s with
    frames := storeWrite Frame.blank s.frames s.depth { method := m, pc := 0, ret := r, wbase := s.newBase }
    arena := initWindow s.newBase (regCount s.cfg m) v s.arena
    depth := s.depth + 1 }

/-- CALL's push: a window that would leave the arena, which 10_state R15 excludes, stops the model (log entry 7). -/
def State.callFrame (s : State) (m : MethodIdx) (r : RegIdx) (v : Value) : Result :=
  if s.newBase + regCount s.cfg m ≤ arenaSlots s.cfg then .next (s.pushFrame m r v)
  else .fault .windowOutsideArena

/-- The state after `deliver(v)` (42_call_return R126). -/
def State.afterDeliver (s : State) (v : Value) : State :=
  let r := s.current.ret
  let popped := { s with depth := s.depth - 1 }
  (popped.writeReg r v).advance

/-- `deliver(v)` (42_call_return R126). The frame below must be a frame that has the caller-target register, which
10_state R33 items 5, 8 and 9 give; otherwise the model stops (log entry 7). -/
def State.deliver (s : State) (v : Value) : Result :=
  match s.frameProblem (s.depth - 2) with
  | some f => .fault f
  | none =>
    if regOutOfBounds (s.regsAt (s.depth - 2)) s.current.ret then .fault .callerTargetOutOfBounds
    else .next (s.afterDeliver v)

/-- `halt(v)` (42_call_return R127). -/
def State.halt (s : State) (v : Value) : State :=
  { s with result := v, depth := 0, status := .halted }

/-- `emit_debug(v)` (50_host_interface R160): the event is recorded; no sink can delay, refuse or fail it. -/
def State.emitDebug (s : State) (v : Value) : State :=
  { s with debugTrace := s.debugTrace ++ [v] }

end Sys2Proof.Machine
end

