-- ==== Sys2Proof/Machine/CallReturn.lean ====
section
/-!
DEFINITION. CALL and RETURN (42_call_return).
-/

namespace Sys2Proof.Machine

/-- CALL (42_call_return R121); the caller's program counter is not written. -/
def execCall (arg : RegIdx) (method : MethodIdx) (result : RegIdx) (s : State) : Result :=
  inCurrentFrame s <|
    if s.regOutside arg || s.regOutside result then raise .registerOutOfBounds s
    else if methodOutOfBounds s.cfg method then raise .methodIndexOutOfBounds s
    else if stackFull s.cfg s.depth then raise .stackOverflow s
    else s.callFrame method result (s.readReg arg)

/-- RETURN (42_call_return R125). -/
def execRet (result : RegIdx) (s : State) : Result :=
  inCurrentFrame s <|
    if s.regOutside result then raise .registerOutOfBounds s
    else if isRoot s.depth then .next (s.halt (s.readReg result))
    else s.deliver (s.readReg result)

end Sys2Proof.Machine
end

