-- ==== Sys2Proof/Machine/DataMovement.lean ====
section
/-!
DEFINITION. MOVE and LITERAL (41_data_movement).
-/

namespace Sys2Proof.Machine

/-- MOVE (41_data_movement R110). -/
def execMove (src dst : RegIdx) (s : State) : Result :=
  inCurrentFrame s <|
    if s.regOutside src || s.regOutside dst then raise .registerOutOfBounds s
    else .next (s.writeReg dst (s.readReg src)).advance

/-- LITERAL (41_data_movement R112). -/
def execLiteral (index : PoolIdx) (dest : RegIdx) (s : State) : Result :=
  inCurrentFrame s <|
    if s.regOutside dest then raise .registerOutOfBounds s
    else
      match s.poolOperand index with
      | none => raise .constantIndexOutOfBounds s
      | some v => .next (s.writeReg dest v).advance

end Sys2Proof.Machine
end

