-- ==== Sys2Proof/Machine/Debug.lean ====
section
/-!
DEFINITION. HACK_PRINT (43_debug).
-/

namespace Sys2Proof.Machine

/-- HACK_PRINT (43_debug R140). The decoder yields it only when HACK_PRINT_PRESENT is true (R141). -/
def execHackPrint (reg : RegIdx) (s : State) : Result :=
  inCurrentFrame s <|
    if s.regOutside reg then raise .registerOutOfBounds s
    else .next (s.emitDebug (s.readReg reg)).advance

end Sys2Proof.Machine
end

