-- ==== Sys2Proof/Machine/Dispatch.lean ====
section
/-!
DEFINITION. The dispatch multiplexer (40_dispatch R94): one arm per constructor, no default arm.
-/

namespace Sys2Proof.Machine

def exec (i : Instr) (s : State) : Host.Outcome State Fault Refusal :=
  match i with
  | .move src dst => Sys2Proof.Machine.execMove src dst s
  | .literal index dest => Sys2Proof.Machine.execLiteral index dest s
  | .call arg method result => Sys2Proof.Machine.execCall arg method result s
  | .ret result => Sys2Proof.Machine.execRet result s
  | .hackPrint reg => Sys2Proof.Machine.execHackPrint reg s

end Sys2Proof.Machine
end

