-- ==== Sys2Proof/WellFormed.lean ====
section
/-!
DEFINITION. Which configurations are configurations of this hardware (00_scope R1, R2; 93_implementation_defined U16),
and which instructions a configuration has. The operands need no check: they are typed by width (30_encoding R73).
-/

namespace Sys2Proof

/-- The opcode numbers as a list, in the order of 30_encoding R74. -/
def OpcodeMap.numbers (m : OpcodeMap) : List Opcode :=
  [m.move, m.literal, m.call, m.ret, m.hackPrint]

/-- Five pairwise different numbers, CALL being 0x04 (00_scope R1). -/
abbrev OpcodeMap.Wf (m : OpcodeMap) : Prop :=
  m.numbers.Nodup ∧ m.call = 0x04

/-- The bounds of 00_scope R2 on one code object; its pool reference names a pool (20_memory R42; DEDUCED, log entry 8). -/
abbrev CodeObject.Wf (nPools : Nat) (o : CodeObject) : Prop :=
  o.code.length ≤ 2 ^ 32 - 1 ∧ o.regCount ≤ 256 ∧ o.poolId < nPools

/-- The bounds of 00_scope R2 on what the host loads. -/
abbrev Image.Wf (im : Image) : Prop :=
  1 ≤ im.maxDepth ∧ im.methodTable.length ≤ 256 ∧
  (∀ o ∈ im.methodTable, o.Wf im.pools.length) ∧ (∀ p ∈ im.pools, p.length ≤ 65536)

/-- A configuration of this hardware (00_scope R1, R2). -/
abbrev Config.Wf (c : Config) : Prop :=
  c.opcodes.Wf ∧ c.image.Wf

/-- An instruction the configuration has: HACK_PRINT only when HACK_PRINT_PRESENT is true (43_debug R141). -/
def Instr.wf (c : Config) : Instr → Bool
  | .move _ _ => true
  | .literal _ _ => true
  | .call _ _ _ => true
  | .ret _ => true
  | .hackPrint _ => c.hackPrintPresent

end Sys2Proof
end

