-- ==== Sys2Proof/Decode.lean ====
section
/-!
DEFINITION. The Instruction Codec (30_encoding): the four primitive operations on 32-bit words, the full decoder, the
canonical encoder, and the byte order of serialized words (20_memory R46). Pure functions (30_encoding R72).
-/

namespace Sys2Proof

/-- The fields of a word read in the ABC form (30_encoding R62). -/
structure FieldsABC where
  a  : BitVec 8
  b  : BitVec 8
  c  : BitVec 8
  op : Opcode
  deriving DecidableEq, Repr

/-- The fields of a word read in the AxC form (30_encoding R63). -/
structure FieldsAxC where
  ax : BitVec 16
  c  : BitVec 8
  op : Opcode
  deriving DecidableEq, Repr

/-- `encodeABC(a, b, c, op) = (a << 24) | (b << 16) | (c << 8) | op` (30_encoding R67). -/
def encodeABC (a b c : BitVec 8) (op : Opcode) : Word :=
  (a.setWidth 32 <<< 24) ||| (b.setWidth 32 <<< 16) ||| (c.setWidth 32 <<< 8) ||| op.setWidth 32

/-- `encodeAxC(ax, c, op) = (ax << 16) | (c << 8) | op` (30_encoding R69). -/
def encodeAxC (ax : BitVec 16) (c : BitVec 8) (op : Opcode) : Word :=
  (ax.setWidth 32 <<< 16) ||| (c.setWidth 32 <<< 8) ||| op.setWidth 32

/-- The opcode byte, bits 7:0 in both forms (30_encoding R61). -/
def opcodeByte (w : Word) : Opcode := w.extractLsb' 0 8

/-- `decodeABC(w)` (30_encoding R68). -/
def decodeABC (w : Word) : FieldsABC :=
  { a := w.extractLsb' 24 8, b := w.extractLsb' 16 8, c := w.extractLsb' 8 8, op := opcodeByte w }

/-- `decodeAxC(w)` (30_encoding R70). -/
def decodeAxC (w : Word) : FieldsAxC :=
  { ax := w.extractLsb' 16 16, c := w.extractLsb' 8 8, op := opcodeByte w }

/-- The full decoder (30_encoding R75): a total function of the word and of the two configuration items
HACK_PRINT_PRESENT and the opcode map. Unused fields are dropped (R76); any other opcode byte is Invalid (R77). -/
def decode (c : Config) (w : Word) : Decoded :=
  if opcodeByte w = c.opcodes.move then .instr (.move (decodeABC w).a (decodeABC w).b)
  else if opcodeByte w = c.opcodes.literal then .instr (.literal (decodeAxC w).ax (decodeAxC w).c)
  else if opcodeByte w = c.opcodes.call then .instr (.call (decodeABC w).a (decodeABC w).b (decodeABC w).c)
  else if opcodeByte w = c.opcodes.ret then .instr (.ret (decodeABC w).a)
  else if opcodeByte w = c.opcodes.hackPrint ∧ c.hackPrintPresent = true then .instr (.hackPrint (decodeABC w).a)
  else .invalid (opcodeByte w)

/-- The opcode number of an instruction under a map (30_encoding R74). -/
def OpcodeMap.opcodeOf (m : OpcodeMap) : Instr → Opcode
  | .move _ _ => m.move
  | .literal _ _ => m.literal
  | .call _ _ _ => m.call
  | .ret _ => m.ret
  | .hackPrint _ => m.hackPrint

/-- `encode_canonical`: unused fields are zero (30_encoding R76). -/
def encode (m : OpcodeMap) : Instr → Word
  | .move src dst => encodeABC src dst 0 m.move
  | .literal index dest => encodeAxC index dest m.literal
  | .call arg method result => encodeABC arg method result m.call
  | .ret result => encodeABC result 0 0 m.ret
  | .hackPrint reg => encodeABC reg 0 0 m.hackPrint

/-- The four bytes of a word in the order a serialized image stores them (20_memory R46). -/
def bytesOfWord (o : ByteOrder) (w : Word) : List Byte :=
  let little := [w.extractLsb' 0 8, w.extractLsb' 8 8, w.extractLsb' 16 8, w.extractLsb' 24 8]
  match o with
  | .littleEndian => little
  | .bigEndian => little.reverse

/-- The word that four bytes at rising offsets stand for (20_memory R46). -/
def wordOfBytes (o : ByteOrder) (b0 b1 b2 b3 : Byte) : Word :=
  match o with
  | .littleEndian => encodeABC b3 b2 b1 b0
  | .bigEndian => encodeABC b0 b1 b2 b3

/-- A loader's reading of a serialized instruction sequence: whole words only, no padding between them (20_memory R41,
R46). A length that is no multiple of four is no sequence of words (DEDUCED, log entry 16). -/
def codeOfBytes (o : ByteOrder) : List Byte → Option (List Word)
  | [] => some []
  | b0 :: b1 :: b2 :: b3 :: rest => (codeOfBytes o rest).map (wordOfBytes o b0 b1 b2 b3 :: ·)
  | _ => none

/-- The instruction the decoder reads, under the default configuration, from a word whose low `nbits` bits are `w` and
whose other bits are zero. No instruction is longer than one 32-bit word (30_encoding R60). -/
def decodeTableWord (nbits w : Nat) : Option Instr :=
  if nbits ≤ 32 then
    match decode Config.default ((BitVec.ofNat nbits w).setWidth 32) with
    | .instr i => some i
    | .invalid _ => none
  else none

end Sys2Proof
end

