-- ==== Sys2Proof/Machine/Fetch.lean ====
section
/-!
DEFINITION. Fetch and decode of one step (40_dispatch R91 to R93).
-/

namespace Sys2Proof.Machine

/-- What fetch and decode hand to the dispatch multiplexer. -/
inductive Fetched where
  /-- An instruction to execute. -/
  | run (i : Instr)
  /-- A fault of the hardware, raised before any operand is looked at. -/
  | trap (c : Cause)
  /-- No current frame of this machine (log entry 7). -/
  | stop (f : Fault)
  deriving DecidableEq, Repr

/-- Decode of the fetched word (40_dispatch R93): an invalid opcode is raised at decode time. -/
def decodeFetched (c : Config) (w : Word) : Fetched :=
  match decode c w with
  | .instr i => .run i
  | .invalid _ => .trap .invalidOpcode

/-- Fetch at the current frame's program counter, then decode; past the end of the code PcOutOfBounds is raised
(40_dispatch R91, R92). -/
def fetch (s : State) : Fetched :=
  if s.depth = 0 then .stop .noCurrentFrame
  else if methodOutOfBounds s.cfg s.current.method then .stop .noCodeObject
  else
    match codeWord s.cfg s.current.method s.current.pc with
    | none => .trap .pcOutOfBounds
    | some w => decodeFetched s.cfg w

end Sys2Proof.Machine
end

