-- ==== Sys2Proof/Machine/HostPort.lean ====
section
/-!
DEFINITION. The host's side of the ports between two steps: reset, the start request and loading (50_host_interface R152
to R157, 70_reset_and_hazards R200 to R202), and which of host and engine has the next step (log entry 5).
-/

namespace Sys2Proof.Machine

/-- Reset of the instance (70_reset_and_hazards R200): every register as 10_state R34 says; the configuration is not
changed (R201). The unspecified frame records and arena slots read blank, as at power-on (log entries 2 and 3). -/
def State.resetInstance (s : State) : State := { State.reset with cfg := s.cfg, inputs := s.inputs }

/-- The writes both kinds of accepted start request begin with: RESULT and the fault record cleared, the stack emptied
(50_host_interface R153, R154). -/
def State.clearForStart (s : State) : State :=
  { s with result := Value.nil, fault := FaultRecord.clear, depth := 0 }

/-- An accepted start request whose ENTRY names a code object (50_host_interface R153). -/
def State.startRun (s : State) (entry : MethodIdx) (arg : Value) : State :=
  { (s.clearForStart.pushFrame entry 0 arg) with status := .running }

/-- An accepted start request whose ENTRY names none (50_host_interface R154). -/
def State.startFault (s : State) (entry : MethodIdx) : State :=
  { s.clearForStart with
    fault := { cause := some .methodIndexOutOfBounds, level := 0, method := entry, pc := 0 }
    status := .faulted }

/-- A start request (50_host_interface R152): ignored while Running, otherwise accepted. -/
def State.startRequest (s : State) (entry : MethodIdx) (arg : Value) : State :=
  if s.status = .running then s
  else if methodOutOfBounds s.cfg entry then s.startFault entry
  else s.startRun entry arg

/-- The events still to come. -/
def State.setInputs (s : State) (events : List HostEvent) : State := { s with inputs := events }

/-- The stores and MAX_DEPTH replaced; the build-time parameters stay (log entry 8). -/
def State.setImage (s : State) (im : Image) : State := { s with cfg := { s.cfg with image := im } }

/-- The host loads the stores and MAX_DEPTH (50_host_interface R157), within the bounds of 00_scope R2 (R161) and not
while Running; the host has no other such move (log entry 8). -/
def State.loadImage (s : State) (im : Image) : Result :=
  if s.status = .running then .refused .loadWhileRunning
  else if im.Wf then .next (s.setImage im)
  else .refused .notAConfiguration

/-- Who has the coming step. -/
inductive Turn where
  /-- The host: its event is the whole step. -/
  | host (o : Result)
  /-- The engine executes an instruction in `s`. -/
  | engine (s : State)
  /-- Nobody: Halted or Faulted with no host event, where nothing changes (40_dispatch R97). -/
  | idle (s : State)
  deriving Repr

/-- The engine's turn, if it is Running (40_dispatch R97). -/
def engineTurn (s : State) : Turn :=
  if s.status = .running then .engine s else .idle s

/-- Look at the ports at a step boundary. A configuration outside the bounds is refused (log entry 8). -/
def turn (s : State) : Turn :=
  if s.cfg.Wf then
    match s.inputs with
    | [] => engineTurn s
    | .quiet :: rest => engineTurn (s.setInputs rest)
    | .reset :: rest => .host (.next (s.setInputs rest).resetInstance)
    | .start entry arg :: rest => .host (.next ((s.setInputs rest).startRequest entry arg))
    | .load im :: rest => .host ((s.setInputs rest).loadImage im)
  else .host (.refused .notAConfiguration)

end Sys2Proof.Machine
end

