-- ==== Sys2Proof/Machine/Placement.lean ====
section
/-!
DEFINITION. Placing one instruction word where the next step fetches (log entry 12).
-/

namespace Sys2Proof.Machine

/-- The image of a loaded program of one word: one code object of 256 registers, one pool with one entry, and room for
one call. -/
def oneWordImage (w : Word) : Image :=
  { methodTable := [{ code := [w], regCount := 256, poolId := 0 }], pools := [[Value.nil]], maxDepth := 2 }

/-- The word sequence with `w` at index `k`, for `k` at most its length. -/
def patchWord (w : Word) (k : Nat) (code : List Word) : List Word :=
  code.take k ++ w :: code.drop (k + 1)

/-- The state with `w` at the current frame's program counter. -/
def placeAtPc (w : Word) (s : State) (o : CodeObject) : State :=
  let o' := { o with code := patchWord w s.current.pc.toNat o.code }
  let table := s.cfg.image.methodTable.set s.current.method.toNat o'
  { s with cfg := { s.cfg with image := { s.cfg.image with methodTable := table } }, inputs := [] }

/-- The state in which the host has loaded the one-word program and an accepted start request has begun it
(50_host_interface R153, R157), the opcode map and the gating as they are. -/
def bootOneWord (w : Word) (s : State) : State :=
  let c := if s.cfg.opcodes.Wf then s.cfg else Config.default
  ({ s with cfg := { c with image := oneWordImage w }, inputs := [] }).startRun 0 Value.nil

/-- Running, in a frame whose program counter may hold a word: the word is placed there. Otherwise a one-word program is
loaded and started. -/
def placeForFetch (w : Word) (s : State) : State :=
  if s.status = .running ∧ 0 < s.depth ∧ s.cfg.Wf ∧ s.frameProblem s.top = none ∧
      s.current.pc.toNat ≤ codeLen s.cfg s.current.method ∧ s.current.pc.toNat + 1 ≤ 2 ^ 32 - 1 then
    match codeObject s.cfg s.current.method with
    | some o => placeAtPc w s o
    | none => bootOneWord w s
  else bootOneWord w s

end Sys2Proof.Machine
end

