-- ==== Sys2Proof/Machine/Step.lean ====
section
/-!
DEFINITION. One step of the instance: a host event, or fetch, decode and execute of one instruction (40_dispatch R96), or,
in Halted and Faulted, nothing (R97).
-/

namespace Sys2Proof.Machine

/-- The engine's step (40_dispatch R96). -/
def engineStep (s : State) : Host.Outcome State Fault Refusal :=
  match fetch s with
  | .stop f => .fault f
  | .trap c => raise c s
  | .run i => exec i s

/-- One step. -/
def step (s : State) : Host.Outcome State Fault Refusal :=
  match turn s with
  | .host o => o
  | .idle s' => .next s'
  | .engine s' => engineStep s'

/-- `s` with the instruction whose low `nbits` bits are `w` stored where `step` fetches its next instruction. -/
def State.withFetchWord (s : State) (nbits w : Nat) : State :=
  placeForFetch ((BitVec.ofNat nbits w).setWidth 32) s

end Sys2Proof.Machine
end

