-- ==== Sys2Proof/Machine/Assembler.lean ====
section
/-!
DEFINITION. The assembler notation of 30_encoding R79, from the tokens of a line to the canonical word, rejecting every
operand that does not fit (R73). Splitting text into tokens is not modelled (log entry 15).
-/

namespace Sys2Proof.Machine

/-- A number that must fit `n` bits: rejected, never truncated, when it does not (30_encoding R73). -/
def asmNumber (n : Nat) (k : Int) : Option (BitVec n) :=
  if 0 ≤ k ∧ k < 2 ^ n then some (BitVec.ofInt n k) else none

/-- A register operand, `rN` or the bare number `N` (30_encoding R79). -/
def asmRegister : AsmOperand → Option RegIdx
  | .r k => asmNumber 8 k
  | .n k => asmNumber 8 k

/-- A pool index or a method index: a bare number (30_encoding R79). -/
def asmIndex (n : Nat) : AsmOperand → Option (BitVec n)
  | .n k => asmNumber n k
  | .r _ => none

/-- The instruction of a line, its operands in written order (30_encoding R79). -/
def asmInstr (l : AsmLine) : Option Instr :=
  match l.mnemonic, l.operands with
  | .move, [src, dst] =>
    (asmRegister src).bind fun a => (asmRegister dst).map fun b => .move a b
  | .literal, [index, dest] =>
    (asmIndex 16 index).bind fun k => (asmRegister dest).map fun c => .literal k c
  | .call, [arg, method, result] =>
    (asmRegister arg).bind fun a => (asmIndex 8 method).bind fun m => (asmRegister result).map fun c => .call a m c
  | .ret, [result] => (asmRegister result).map .ret
  | .hackPrint, [reg] => (asmRegister reg).map .hackPrint
  | _, _ => none

/-- The word of a line under an opcode map (30_encoding R79). -/
def assemble (m : OpcodeMap) (l : AsmLine) : Option Word := (asmInstr l).map (encode m)

/-- The line of an instruction, registers written `rN` (30_encoding R79). -/
def asmLine : Instr → AsmLine
  | .move src dst => ⟨.move, [.r src.toNat, .r dst.toNat]⟩
  | .literal index dest => ⟨.literal, [.n index.toNat, .r dest.toNat]⟩
  | .call arg method result => ⟨.call, [.r arg.toNat, .n method.toNat, .r result.toNat]⟩
  | .ret result => ⟨.ret, [.r result.toNat]⟩
  | .hackPrint reg => ⟨.hackPrint, [.r reg.toNat]⟩

end Sys2Proof.Machine
end

