-- ==== Sys2Proof/Machine/Value.lean ====
section
/-!
DEFINITION. The 68-bit layout of a Value on ports and in slots, the six tags, and the Values by name (10_state R10, R11).
-/

namespace Sys2Proof.Machine

/-- The tags of 10_state R10, and the codes 6 to 15 that R11 reserves for extension. -/
inductive Tag where
  | nil
  | bool
  | int
  | float
  | text
  | callable
  | reserved (code : BitVec 4)
  deriving DecidableEq, Repr

/-- The tag a Value carries (10_state R11). The core itself never looks (R12). -/
def valueTag (v : Value) : Tag :=
  if v.tag = 0 then .nil
  else if v.tag = 1 then .bool
  else if v.tag = 2 then .int
  else if v.tag = 3 then .float
  else if v.tag = 4 then .text
  else if v.tag = 5 then .callable
  else .reserved v.tag

/-- `Bool(b)` (10_state R11). -/
def boolValue (b : Bool) : Value := ⟨1, if b then 1 else 0⟩

/-- `Int(n)`, in two's complement: PRESUMED, the spec's own general-knowledge passage K1 (10_state R11; log entry 10). -/
def intValue (n : Int) : Value := ⟨2, BitVec.ofInt 64 n⟩

/-- `Float` with its 64 uninterpreted bits (10_state R11). -/
def floatValue (bits : BitVec 64) : Value := ⟨3, bits⟩

/-- `Text` with its 64-bit handle (10_state R11). -/
def textValue (handle : BitVec 64) : Value := ⟨4, handle⟩

/-- `Callable(m)`, the method index zero-extended (10_state R11). -/
def callableValue (m : MethodIdx) : Value := ⟨5, m.setWidth 64⟩

/-- Whether the payload is one that the table of 10_state R11 calls canonical for the tag. -/
def isCanonicalValue (v : Value) : Bool :=
  match valueTag v with
  | .nil => v.payload = 0
  | .bool => v.payload = 0 || v.payload = 1
  | .int => true
  | .float => true
  | .text => true
  | .callable => v.payload.toNat < 256
  | .reserved _ => true

/-- The 68-bit port and slot word `tag ++ payload` (10_state R11). -/
def valueBits (v : Value) : BitVec 68 := (v.tag ++ v.payload : BitVec (4 + 64))

/-- The Value that a 68-bit word is. -/
def valueOfBits (w : BitVec 68) : Value := ⟨w.extractLsb' 64 4, w.extractLsb' 0 64⟩

end Sys2Proof.Machine
end

