-- ==== Sys2Proof/Machine/Ports.lean ====
section
/-!
DEFINITION. The output ports (50_host_interface R150), the debug port (R160) and the outcome of a run (R155).
-/

namespace Sys2Proof.Machine

/-- The STATUS code (10_state R27). -/
def statusCode : Status → BitVec 2
  | .halted => 0
  | .running => 1
  | .faulted => 2

/-- The FAULT_CAUSE code; 0 means no fault (10_state R30, 60_exceptions R170). -/
def faultCauseCode (f : FaultRecord) : BitVec 4 :=
  match f.cause with
  | some c => causeCode c
  | none => 0

/-- The output ports of 50_host_interface R150. `depth` and `faultLevel` are DEPTH_BITS wide (log entry 11). -/
structure OutputPorts where
  status      : BitVec 2
  depth       : Nat
  result      : BitVec 68
  faultCause  : BitVec 4
  faultLevel  : Nat
  faultMethod : BitVec 8
  faultPc     : BitVec 32
  deriving DecidableEq, Repr

/-- What the output ports show. -/
def State.ports (s : State) : OutputPorts :=
  { status := statusCode s.status
    depth := s.depth
    result := valueBits s.result
    faultCause := faultCauseCode s.fault
    faultLevel := s.fault.level
    faultMethod := s.fault.method
    faultPc := s.fault.pc }

/-- The debug port during the step from `s` to `t`: `dbg_valid` with `dbg_value` exactly when a Value was appended to the
trace (50_host_interface R160). -/
def dbgPort (s t : State) : Option (BitVec 68) :=
  if t.debugTrace.length = s.debugTrace.length + 1 then (t.debugTrace.getLast?).map valueBits else none

/-- What a real sink may have shown: a subsequence of the trace, in order (50_host_interface R160). -/
abbrev sinkMayShow (s : State) (shown : List Value) : Prop := shown.Sublist s.debugTrace

/-- The result of `run` (50_host_interface R155). -/
inductive RunOutcome where
  | ok (v : Value)
  | fault (r : FaultRecord)
  deriving DecidableEq, Repr

/-- The outcome read when STATUS has left Running (50_host_interface R155). -/
def State.runOutcome (s : State) : Option RunOutcome :=
  match s.status with
  | .halted => some (.ok s.result)
  | .running => none
  | .faulted => some (.fault s.fault)

end Sys2Proof.Machine
end

