-- ==== Sys2Proof/Machine/Run.lean ====
section
/-!
DEFINITION. Runs: repeated steps, `run(ENTRY, ARG)` (50_host_interface R155), the bound on its length (40_dispatch R99),
the count of completed CALLs and RETURNs (42_call_return R128), and the steps inside a call.
-/

namespace Sys2Proof.Machine

/-- `n` steps; `none` if one of them is no next state. -/
def steps : Nat → State → Option State
  | 0, s => some s
  | n + 1, s =>
    match step s with
    | .next t => steps n t
    | .fault _ => none
    | .refused _ => none

/-- The loop of 50_host_interface R155, at most `fuel` steps of it: `while STATUS = Running: step()`. -/
def runLoop : Nat → State → Option State
  | 0, s => some s
  | n + 1, s =>
    if s.status = .running then
      match step s with
      | .next t => runLoop n t
      | .fault _ => none
      | .refused _ => none
    else some s

/-- The largest `CodeLen` of the Method Table, `L` of 40_dispatch R99. -/
def maxCodeLen (c : Config) : Nat := c.image.methodTable.foldr (fun o n => max o.code.length n) 0

/-- `1 + L + L^2 + ... + L^(d-1)` (40_dispatch R99). -/
def powerSum (L : Nat) : Nat → Nat
  | 0 => 0
  | d + 1 => powerSum L d + L ^ d

/-- The most frames that a run creates (40_dispatch R99). -/
def frameBound (c : Config) : Nat := powerSum (maxCodeLen c) c.image.maxDepth

/-- The most steps that a run executes; the last one of them is one that faults (40_dispatch R99). -/
def runBound (c : Config) : Nat := maxCodeLen c * frameBound c + 1

/-- `run(ENTRY, ARG)` with the bound of 40_dispatch R99 as fuel, the host acting no further (50_host_interface R155). -/
def run (s : State) (entry : MethodIdx) (arg : Value) : Option RunOutcome :=
  match runLoop (runBound s.cfg) (({ s with inputs := [] }).startRequest entry arg) with
  | some t => t.runOutcome
  | none => none

/-- Completed CALLs and RETURNs (42_call_return R128). -/
structure Tally where
  calls   : Nat
  returns : Nat
  deriving DecidableEq, Repr

/-- The instruction that the engine executes in `s`, if it is Running. -/
def executing (s : State) : Option Instr :=
  if s.status = .running then
    match fetch s with
    | .run i => some i
    | .trap _ => none
    | .stop _ => none
  else none

/-- One completed instruction more. -/
def Tally.count (n : Tally) : Option Instr → Tally
  | some (.call _ _ _) => { n with calls := n.calls + 1 }
  | some (.ret _) => { n with returns := n.returns + 1 }
  | some (.move _ _) => n
  | some (.literal _ _) => n
  | some (.hackPrint _) => n
  | none => n

/-- `n` steps none of which raises a fault, with the CALLs and RETURNs they completed; `none` if one does not go on
(42_call_return R128). -/
def tally : Nat → State → Tally → Option (Tally × State)
  | 0, s, n => some (n, s)
  | k + 1, s, n =>
    match step s with
    | .next t => if t.status = .faulted then none else tally k t (n.count (executing s))
    | .fault _ => none
    | .refused _ => none

/-- `n` steps of which every state, the first and the last included, has at least `d` frames on the stack; `none` if there
are no such steps. -/
def stepsAbove (d : Nat) : Nat → State → Option State
  | 0, s => if d ≤ s.depth then some s else none
  | n + 1, s =>
    if d ≤ s.depth then
      match step s with
      | .next t => stepsAbove d n t
      | .fault _ => none
      | .refused _ => none
    else none

end Sys2Proof.Machine
end

