-- ==== Sys2Proof/Safety.lean ====
section
/-!
DEFINITION. The terms the claims use: the invariants of 10_state R33 and their companions, what a step leaves alone, and
the renaming of Values under which an uninterpreting core cannot tell runs apart (10_state R12), and which assembler lines
are legal.
-/

namespace Sys2Proof.Machine

/-- 10_state R33 items 1 to 3: STATUS against DEPTH and the fault record. -/
abbrev StatusInv (s : State) : Prop :=
  (s.status = .running → 1 ≤ s.depth) ∧
  (s.status = .halted → s.depth = 0 ∧ s.fault.cause = none) ∧
  (s.status = .faulted ↔ s.fault.cause ≠ none)

/-- 10_state R33 item 7 for the suspended frame at level `l`: its word is a CALL of the frame above it, with that frame's
return-register tag as C. -/
def suspendedInCall (s : State) (l : Nat) : Bool :=
  match codeWord s.cfg (s.frameAt l).method (s.frameAt l).pc with
  | none => false
  | some w =>
    opcodeByte w == s.cfg.opcodes.call && (decodeABC w).b == (s.frameAt (l + 1)).method &&
      (decodeABC w).c == (s.frameAt (l + 1)).ret

/-- 10_state R33 items 4 to 9: the frames on the Call Stack. -/
abbrev StackInv (s : State) : Prop :=
  s.depth ≤ s.cfg.image.maxDepth ∧
  (∀ l < s.depth, (s.frameAt l).method.toNat < methodCount s.cfg) ∧
  (∀ l < s.depth, (s.frameAt l).pc.toNat ≤ codeLen s.cfg (s.frameAt l).method) ∧
  (∀ l < s.depth - 1, suspendedInCall s l = true) ∧
  (∀ l < s.depth - 1, (s.frameAt (l + 1)).ret.toNat < s.regsAt l) ∧
  (0 < s.depth → (s.frameAt 0).wbase = 0) ∧
  (∀ l < s.depth - 1, (s.frameAt (l + 1)).wbase = (s.frameAt l).wbase + s.regsAt l)

/-- The canonical form of the two sparse arrays. -/
abbrev StoresWf (s : State) : Prop :=
  StoreWf Value.nil s.arena ∧ StoreWf Frame.blank s.frames

/-- RESULT is Nil but in Halted (10_state R29), TypeMismatch is never recorded (60_exceptions R178), and a core without
HACK_PRINT has shown nothing on the debug port (43_debug R141). -/
abbrev OutputInv (s : State) : Prop :=
  (s.status ≠ .halted → s.result = Value.nil) ∧
  s.fault.cause ≠ some .typeMismatch ∧
  (s.cfg.hackPrintPresent = false → s.debugTrace = [])

/-- Faulted with an empty stack is the outcome of a start request whose ENTRY names no code object: its cause, level and
program counter are those of 50_host_interface R154. -/
abbrev EmptyFaultInv (s : State) : Prop :=
  s.status = .faulted → s.depth = 0 →
    s.fault.cause = some .methodIndexOutOfBounds ∧ s.fault.level = 0 ∧ s.fault.pc = 0

/-- The fault record is all zero where no fault is recorded, and FAULT_LEVEL fits DEPTH_BITS (10_state R30). -/
abbrev FaultLevelInv (s : State) : Prop :=
  (s.fault.cause = none → s.fault = FaultRecord.clear) ∧ s.fault.level < 2 ^ depthBits s.cfg

/-- The host's next event is a start request that is accepted and names no code object (50_host_interface R152, R154). -/
abbrev BadStart (s : State) (entry : MethodIdx) (arg : Value) (rest : List HostEvent) : Prop :=
  s.inputs = .start entry arg :: rest ∧ s.status ≠ .running ∧ methodCount s.cfg ≤ entry.toNat

/-- Everything the spec keeps invariant (10_state R33 and the rules named above). A load in Faulted can end it: log entry 9. -/
abbrev Inv (s : State) : Prop :=
  s.cfg.Wf ∧ StatusInv s ∧ StackInv s ∧ StoresWf s ∧ OutputInv s

/-- The part that every step keeps, a load in Faulted included: the frames matter only while the core is Running
(log entry 9). -/
abbrev RunInv (s : State) : Prop :=
  s.cfg.Wf ∧ StatusInv s ∧ (s.status = .running → StackInv s) ∧ StoresWf s ∧ OutputInv s

/-- The host's next event loads new stores while a faulted run's frames are still on the stack (log entry 9). -/
def loadsWhileFaulted (s : State) : Bool :=
  match s.inputs with
  | .load _ :: _ => s.status == .faulted
  | _ => false

/-- No host event at the coming boundary. -/
def hostQuiet (s : State) : Bool :=
  match s.inputs with
  | [] => true
  | .quiet :: _ => true
  | _ => false

/-- The frame at level `l` exists and has `n` registers in the arena: what an instruction needs of the frame it runs in. -/
abbrev FrameReady (s : State) (l n : Nat) : Prop :=
  (s.frameAt l).method.toNat < methodCount s.cfg ∧ s.regsAt l = n ∧ (s.frameAt l).wbase + n ≤ arenaSlots s.cfg

/-- The current frame exists and has `n` registers. -/
abbrev CurrentReady (s : State) (n : Nat) : Prop := 0 < s.depth ∧ FrameReady s (s.depth - 1) n

/-- The registers outside the arena and the frame stack, the configuration and the host's events are the same. -/
abbrev SameControl (s t : State) : Prop :=
  t.cfg = s.cfg ∧ t.depth = s.depth ∧ t.status = s.status ∧ t.result = s.result ∧ t.fault = s.fault ∧ t.inputs = s.inputs

/-- Every arena slot but `k` is the same. -/
abbrev SameArenaBut (s t : State) (k : Nat) : Prop := ∀ j, j ≠ k → t.slot j = s.slot j

/-- Every arena slot is the same. -/
abbrev SameArena (s t : State) : Prop := ∀ j, t.slot j = s.slot j

/-- Every frame record is the same, but that the one at level `l` has its program counter one further. -/
abbrev OnlyPcAdvances (s t : State) (l : Nat) : Prop :=
  (t.frameAt l).method = (s.frameAt l).method ∧ (t.frameAt l).pc = (s.frameAt l).pc + 1 ∧
  (t.frameAt l).ret = (s.frameAt l).ret ∧ (t.frameAt l).wbase = (s.frameAt l).wbase ∧
  ∀ k, k ≠ l → t.frameAt k = s.frameAt k

/-- Fault entry and nothing else (60_exceptions R176). -/
abbrev OnlyFaultEntry (s t : State) (c : Cause) : Prop :=
  t.fault.cause = some c ∧ t.fault.level = s.depth - 1 ∧ t.fault.method = (s.frameAt (s.depth - 1)).method ∧
  t.fault.pc = (s.frameAt (s.depth - 1)).pc ∧ t.status = .faulted ∧
  t.cfg = s.cfg ∧ t.arena = s.arena ∧ t.frames = s.frames ∧ t.depth = s.depth ∧ t.result = s.result ∧
  t.debugTrace = s.debugTrace ∧ t.inputs = s.inputs

/-- The operands of an instruction that refer to registers of the current frame (60_exceptions R171). -/
def registerOperands : Instr → List RegIdx
  | .move src dst => [src, dst]
  | .literal _ dest => [dest]
  | .call arg _ result => [arg, result]
  | .ret result => [result]
  | .hackPrint reg => [reg]

/-- The causes an instruction can raise in its execute stage (60_exceptions R191). -/
def executeCauses : Instr → List Cause
  | .move _ _ => [.registerOutOfBounds]
  | .literal _ _ => [.registerOutOfBounds, .constantIndexOutOfBounds]
  | .call _ _ _ => [.registerOutOfBounds, .methodIndexOutOfBounds, .stackOverflow]
  | .ret _ => [.registerOutOfBounds]
  | .hackPrint _ => [.registerOutOfBounds]

/-- The operands of an instruction that refer to the constant pool (30_encoding R66). -/
def poolOperands : Instr → List PoolIdx
  | .move _ _ => []
  | .literal index _ => [index]
  | .call _ _ _ => []
  | .ret _ => []
  | .hackPrint _ => []

/-- The operands of an instruction that refer to the Method Table; an instruction that has one pushes a frame
(30_encoding R66). -/
def methodOperands : Instr → List MethodIdx
  | .move _ _ => []
  | .literal _ _ => []
  | .call _ method _ => [method]
  | .ret _ => []
  | .hackPrint _ => []

/-- The fault of the execute stage: the first condition that holds, positions 3 to 6 of 60_exceptions R179. -/
def executeFault (s : State) (i : Instr) : Option Cause :=
  if (registerOperands i).any (fun r => s.regsAt (s.depth - 1) ≤ r.toNat) then some .registerOutOfBounds
  else if (poolOperands i).any (fun k => poolLen s.cfg (s.frameAt (s.depth - 1)).method ≤ k.toNat) then
    some .constantIndexOutOfBounds
  else if (methodOperands i).any (fun m => methodCount s.cfg ≤ m.toNat) then some .methodIndexOutOfBounds
  else if (methodOperands i).length = 1 ∧ s.depth = s.cfg.image.maxDepth then some .stackOverflow
  else none

/-- The fault of a step in a Running state: the first condition that holds, in the order of 60_exceptions R179. -/
def stepFault (s : State) : Option Cause :=
  match codeWord s.cfg (s.frameAt (s.depth - 1)).method (s.frameAt (s.depth - 1)).pc with
  | none => some .pcOutOfBounds
  | some w =>
    match decode s.cfg w with
    | .invalid _ => some .invalidOpcode
    | .instr i => executeFault s i

/-- What the table of 40_dispatch R95 says of STATUS, DEPTH and the program counters when `i` completes. -/
def NextByTable (s t : State) : Instr → Prop
  | .move _ _ => t.status = .running ∧ t.depth = s.depth ∧ OnlyPcAdvances s t (s.depth - 1)
  | .literal _ _ => t.status = .running ∧ t.depth = s.depth ∧ OnlyPcAdvances s t (s.depth - 1)
  | .call _ _ _ =>
    t.status = .running ∧ t.depth = s.depth + 1 ∧ (t.frameAt s.depth).pc = 0 ∧
    ∀ l, l ≠ s.depth → t.frameAt l = s.frameAt l
  | .ret _ =>
    if s.depth = 1 then t.status = .halted ∧ t.depth = 0 ∧ t.frames = s.frames
    else t.status = .running ∧ t.depth + 1 = s.depth ∧ OnlyPcAdvances s t (s.depth - 2)
  | .hackPrint _ => t.status = .running ∧ t.depth = s.depth ∧ OnlyPcAdvances s t (s.depth - 1)

/-- The state with other constant pools. -/
def withPools (pools : List (List Value)) (s : State) : State :=
  { s with cfg := { s.cfg with image := { s.cfg.image with pools := pools } } }

/-- The outcome with its next state changed by `g`. -/
def onNext (g : State → State) : Result → Result
  | .next s => .next (g s)
  | .fault r => .fault r
  | .refused r => .refused r

/-- An image with every pool entry renamed. -/
def mapImage (f : Value → Value) (im : Image) : Image :=
  { im with pools := im.pools.map (List.map f) }

/-- A configuration with every pool entry renamed. -/
def mapConfig (f : Value → Value) (c : Config) : Config := { c with image := mapImage f c.image }

/-- A host event with every Value renamed. -/
def mapEvent (f : Value → Value) : HostEvent → HostEvent
  | .quiet => .quiet
  | .reset => .reset
  | .start entry arg => .start entry (f arg)
  | .load im => .load (mapImage f im)

/-- `t` is `s` with every Value replaced by its image under `f`, slots compared by what they read as (10_state R12). -/
def RenamedBy (f : Value → Value) (s t : State) : Prop :=
  t.cfg = mapConfig f s.cfg ∧ (∀ k, t.slot k = f (s.slot k)) ∧ t.frames = s.frames ∧ t.depth = s.depth ∧
  t.status = s.status ∧ t.result = f s.result ∧ t.fault = s.fault ∧ t.debugTrace = s.debugTrace.map f ∧
  t.inputs = s.inputs.map (mapEvent f)

/-- Two outcomes of one kind: next states renamed by `f`, or the same stop. -/
def OutcomeRenamedBy (f : Value → Value) : Result → Result → Prop
  | .next s, .next t => RenamedBy f s t
  | .fault r, .fault r' => r = r'
  | .refused r, .refused r' => r = r'
  | _, _ => False

/-! ### The assembler notation (30_encoding R73, R79) -/

/-- What a place of an assembler line takes: a register, or an index of a field of `n` bits (30_encoding R79). -/
inductive AsmField where
  | register
  | index (n : Nat)
  deriving DecidableEq, Repr

/-- The places of each mnemonic, in written order (30_encoding R79). -/
def asmFields : Mnemonic → List AsmField
  | .move => [.register, .register]
  | .literal => [.index 16, .register]
  | .call => [.register, .index 8, .register]
  | .ret => [.register]
  | .hackPrint => [.register]

/-- An operand that its place takes: spelt as the place allows, and in its range (30_encoding R73, R79). -/
def AsmField.takes : AsmField → AsmOperand → Bool
  | .register, .r k => 0 ≤ k && k < 256
  | .register, .n k => 0 ≤ k && k < 256
  | .index n, .n k => 0 ≤ k && k < 2 ^ n
  | .index _, .r _ => false

/-- As many operands as places, each one taken. -/
def operandsFit : List AsmField → List AsmOperand → Bool
  | [], [] => true
  | f :: fs, o :: os => f.takes o && operandsFit fs os
  | _, _ => false

/-- The line is legal (30_encoding R79); any other is an assembly error. -/
def lineFits (l : AsmLine) : Bool := operandsFit (asmFields l.mnemonic) l.operands

/-- Both spellings of register `i` (30_encoding R79). -/
abbrev WritesRegister (o : AsmOperand) (i : RegIdx) : Prop := o = .r i.toNat ∨ o = .n i.toNat

/-- The line is a spelling of the instruction, operands in written order (30_encoding R79). -/
def WritesInstr (l : AsmLine) : Instr → Prop
  | .move src dst =>
    l.mnemonic = .move ∧ ∃ x y, l.operands = [x, y] ∧ WritesRegister x src ∧ WritesRegister y dst
  | .literal index dest =>
    l.mnemonic = .literal ∧ ∃ y, l.operands = [.n index.toNat, y] ∧ WritesRegister y dest
  | .call arg method result =>
    l.mnemonic = .call ∧ ∃ x z, l.operands = [x, .n method.toNat, z] ∧ WritesRegister x arg ∧ WritesRegister z result
  | .ret result => l.mnemonic = .ret ∧ ∃ x, l.operands = [x] ∧ WritesRegister x result
  | .hackPrint reg => l.mnemonic = .hackPrint ∧ ∃ x, l.operands = [x] ∧ WritesRegister x reg

end Sys2Proof.Machine
end

