-- ==== Sys2Proof/Certificates/Slice0/Obligations.lean ====
section
/-!
DEFINITION. The statements for the provers, each formalising rules of spec/ (OBLIGATIONS.json names them).
-/

open Sys2Proof Sys2Proof.Machine

/-! ### Codec, assembler, loader, Values (30_encoding, 20_memory R46, 10_state R11) -/

/-- 30_encoding R67, R69 with R62, R63, R64: both encoders concatenate their fields, and the number they give is the
weighted sum of the fields. -/
def Obligations.EncodersConcatenateFields : Prop :=
  (∀ a b c op : BitVec 8,
    encodeABC a b c op = (a ++ b ++ c ++ op : BitVec 32) ∧
    (encodeABC a b c op).toNat = a.toNat * 2 ^ 24 + b.toNat * 2 ^ 16 + c.toNat * 2 ^ 8 + op.toNat) ∧
  (∀ (ax : BitVec 16) (c op : BitVec 8),
    encodeAxC ax c op = (ax ++ c ++ op : BitVec 32) ∧
    (encodeAxC ax c op).toNat = ax.toNat * 2 ^ 16 + c.toNat * 2 ^ 8 + op.toNat) ∧
  (∀ w : Word, (decodeAxC w).ax = (decodeABC w).a ++ (decodeABC w).b ∧
    (decodeAxC w).ax.toNat = 256 * (decodeABC w).a.toNat + (decodeABC w).b.toNat ∧
    (decodeAxC w).c = (decodeABC w).c ∧ (decodeAxC w).op = (decodeABC w).op)

/-- 30_encoding R71, its five laws. -/
def Obligations.CodecLaws : Prop :=
  (∀ a b c op : BitVec 8, decodeABC (encodeABC a b c op) = ⟨a, b, c, op⟩) ∧
  (∀ (ax : BitVec 16) (c op : BitVec 8), decodeAxC (encodeAxC ax c op) = ⟨ax, c, op⟩) ∧
  (∀ w w' : Word,
    ((∀ k, 24 ≤ k → k < 32 → w.getLsbD k = w'.getLsbD k) → (decodeABC w).a = (decodeABC w').a) ∧
    ((∀ k, 16 ≤ k → k < 24 → w.getLsbD k = w'.getLsbD k) → (decodeABC w).b = (decodeABC w').b) ∧
    ((∀ k, 8 ≤ k → k < 16 → w.getLsbD k = w'.getLsbD k) →
      (decodeABC w).c = (decodeABC w').c ∧ (decodeAxC w).c = (decodeAxC w').c) ∧
    ((∀ k, k < 8 → w.getLsbD k = w'.getLsbD k) →
      (decodeABC w).op = (decodeABC w').op ∧ (decodeAxC w).op = (decodeAxC w').op) ∧
    ((∀ k, 16 ≤ k → k < 32 → w.getLsbD k = w'.getLsbD k) → (decodeAxC w).ax = (decodeAxC w').ax)) ∧
  (∀ w : Word, encodeABC (decodeABC w).a (decodeABC w).b (decodeABC w).c (decodeABC w).op = w ∧
    encodeAxC (decodeAxC w).ax (decodeAxC w).c (decodeAxC w).op = w) ∧
  (∀ a b c op : BitVec 8, encodeAxC (BitVec.ofNat 16 (256 * a.toNat + b.toNat)) c op = encodeABC a b c op)

/-- 30_encoding R76: unused fields are ignored, whatever they hold; the canonical encoding of each instruction; and decoding
the canonical word of an instruction that the configuration has gives it back, under every admissible opcode map
(00_scope R1). -/
def Obligations.DecodeOfEncode : Prop :=
  (∀ (c : Config) (a b x y : BitVec 8), c.opcodes.Wf →
    decode c (encodeABC a b x c.opcodes.move) = decode c (encodeABC a b 0 c.opcodes.move) ∧
    decode c (encodeABC a x y c.opcodes.ret) = decode c (encodeABC a 0 0 c.opcodes.ret) ∧
    decode c (encodeABC a x y c.opcodes.hackPrint) =
      (if c.hackPrintPresent then decode c (encodeABC a 0 0 c.opcodes.hackPrint) else .invalid c.opcodes.hackPrint)) ∧
  (∀ (m : OpcodeMap) (f t r : RegIdx) (k : PoolIdx) (d : RegIdx) (a : RegIdx) (x : MethodIdx),
    encode m (.move f t) = encodeABC f t 0 m.move ∧ encode m (.literal k d) = encodeAxC k d m.literal ∧
    encode m (.call a x r) = encodeABC a x r m.call ∧ encode m (.ret r) = encodeABC r 0 0 m.ret ∧
    encode m (.hackPrint r) = encodeABC r 0 0 m.hackPrint) ∧
  (∀ (c : Config) (i : Instr), c.opcodes.Wf → i.wf c = true → decode c (encode c.opcodes i) = .instr i)

/-- 30_encoding R75: the decoder, opcode by opcode, on every 32-bit word; fields an instruction does not use are dropped
(R76). -/
def Obligations.DecoderFollowsOpcodeByte : Prop :=
  ∀ (c : Config) (w : Word), c.opcodes.Wf →
    (opcodeByte w = c.opcodes.move → decode c w = .instr (.move (w.extractLsb' 24 8) (w.extractLsb' 16 8))) ∧
    (opcodeByte w = c.opcodes.literal → decode c w = .instr (.literal (w.extractLsb' 16 16) (w.extractLsb' 8 8))) ∧
    (opcodeByte w = c.opcodes.call →
      decode c w = .instr (.call (w.extractLsb' 24 8) (w.extractLsb' 16 8) (w.extractLsb' 8 8))) ∧
    (opcodeByte w = c.opcodes.ret → decode c w = .instr (.ret (w.extractLsb' 24 8))) ∧
    (opcodeByte w = c.opcodes.hackPrint → c.hackPrintPresent = true →
      decode c w = .instr (.hackPrint (w.extractLsb' 24 8))) ∧
    (opcodeByte w = c.opcodes.hackPrint → c.hackPrintPresent = false → decode c w = .invalid (opcodeByte w)) ∧
    (opcodeByte w ∉ c.opcodes.numbers → decode c w = .invalid (opcodeByte w))

/-- 30_encoding R77: with the default map exactly the opcode bytes 0, 1 and 7 to 255 are invalid, and 6 too when
HACK_PRINT_PRESENT is false, whatever the other 24 bits hold. -/
def Obligations.InvalidOpcodeBytes : Prop :=
  ∀ (c : Config) (w : Word), c.opcodes = OpcodeMap.default →
    (decode c w = .invalid (opcodeByte w) ↔
      (opcodeByte w).toNat < 2 ∨ 6 < (opcodeByte w).toNat ∨
        ((opcodeByte w).toNat = 6 ∧ c.hackPrintPresent = false))

/-- Words of 95_test_vectors section 2 and the instructions they are written beside (30_encoding R74). -/
def Obligations.VectorWordsDecode : Prop :=
  decode Config.default 0x05010002 = .instr (.move 5 1) ∧
  decode Config.default 0x00010003 = .instr (.literal 1 0) ∧
  decode Config.default 0x02070104 = .instr (.call 2 7 1) ∧
  decode Config.default 0x01CDEF05 = .instr (.ret 1) ∧
  decode Config.default 0x02000006 = .instr (.hackPrint 2) ∧
  decode Config.default 0x00000000 = .invalid 0x00 ∧
  decode Config.default 0xFFFFFFFF = .invalid 0xFF

/-- 30_encoding R73, R79: a line assembles exactly when it has the right number of operands, each spelt as its place allows
and in the range of its field; the word is then the canonical one of the instruction the line spells, in both spellings of
a register; every other line is rejected, never truncated. Splitting text into tokens is outside (log entry 15). -/
def Obligations.AssemblerAcceptsExactlyWhatFits : Prop :=
  (∀ (m : OpcodeMap) (l : AsmLine), (∃ w, assemble m l = some w) ↔ lineFits l = true) ∧
  (∀ (m : OpcodeMap) (l : AsmLine), lineFits l = false → assemble m l = none) ∧
  (∀ (m : OpcodeMap) (l : AsmLine) (i : Instr), WritesInstr l i → assemble m l = some (encode m i)) ∧
  (∀ (m : OpcodeMap) (l : AsmLine) (w : Word), assemble m l = some w → ∃ i, WritesInstr l i ∧ w = encode m i) ∧
  (∀ (m : OpcodeMap) (i : Instr), assemble m (asmLine i) = some (encode m i)) ∧
  (∀ (n : Nat) (k : Int), (∃ b, asmNumber n k = some b) ↔ 0 ≤ k ∧ k < 2 ^ n) ∧
  (∀ (n : Nat) (k : Int) (b : BitVec n), asmNumber n k = some b → (b.toNat : Int) = k)

/-- 20_memory R46: which byte of a serialized word lies where, in both byte orders; a loader reads back every instruction
sequence from its bytes, and takes no length that is not a whole number of words (from 20_memory R41; the model's choice,
log entry 16). -/
def Obligations.SerializedCodeReadsBack : Prop :=
  (∀ a b c op : BitVec 8, bytesOfWord .littleEndian (encodeABC a b c op) = [op, c, b, a] ∧
    bytesOfWord .bigEndian (encodeABC a b c op) = [a, b, c, op]) ∧
  ∀ o : ByteOrder,
    (∀ ws : List Word, codeOfBytes o (ws.flatMap (bytesOfWord o)) = some ws) ∧
    (∀ bs : List Byte, (codeOfBytes o bs).isSome = true ↔ bs.length % 4 = 0)

/-- 10_state R11, R13: a Value is its 68-bit word; Nil is the all-zero word; equality is equality of words. -/
def Obligations.ValueIsItsWord : Prop :=
  (∀ v : Value, valueBits v = (v.tag ++ v.payload : BitVec 68)) ∧ (∀ v : Value, valueOfBits (valueBits v) = v) ∧
  (∀ w : BitVec 68, valueBits (valueOfBits w) = w) ∧ valueBits Value.nil = 0 ∧
  (∀ v w : Value, v = w ↔ valueBits v = valueBits w)

/-! ### The instructions (41_data_movement, 42_call_return, 43_debug) -/

/-- 41_data_movement R110: the encoding and the assembly, the effect with everything it leaves alone, and the fault. -/
def Obligations.MoveFollowsItsRule : Prop :=
  (∀ (c : Config) (a b x : BitVec 8), c.opcodes.Wf →
    decode c (encodeABC a b x c.opcodes.move) = .instr (.move a b) ∧
    assemble c.opcodes ⟨.move, [.n a.toNat, .n b.toNat]⟩ = some (encodeABC a b 0 c.opcodes.move)) ∧
  (∀ (s : State) (n : Nat) (a b : RegIdx), CurrentReady s n →
    if a.toNat < n ∧ b.toNat < n then
      ∃ t, exec (.move a b) s = .next t ∧
        t.reg (s.depth - 1) b = s.reg (s.depth - 1) a ∧
        t.reg (s.depth - 1) a = s.reg (s.depth - 1) a ∧
        SameArenaBut s t (s.slotOf (s.depth - 1) b) ∧ OnlyPcAdvances s t (s.depth - 1) ∧
        SameControl s t ∧ t.debugTrace = s.debugTrace
    else ∃ t, exec (.move a b) s = .next t ∧ OnlyFaultEntry s t .registerOutOfBounds)

/-- 41_data_movement R111, last law: MOVE twice in a row leaves the registers as one execution does. -/
def Obligations.MoveTwiceIsMoveOnce : Prop :=
  ∀ (s : State) (n : Nat) (a b : RegIdx), CurrentReady s n → a.toNat < n → b.toNat < n →
    ∃ t u, exec (.move a b) s = .next t ∧ exec (.move a b) t = .next u ∧ SameArena t u

/-- 41_data_movement R112: the encoding and the assembly, the effect with everything it leaves alone, and the two faults
in order. -/
def Obligations.LiteralFollowsItsRule : Prop :=
  (∀ (c : Config) (ax : BitVec 16) (x : BitVec 8), c.opcodes.Wf →
    decode c (encodeAxC ax x c.opcodes.literal) = .instr (.literal ax x) ∧
    assemble c.opcodes ⟨.literal, [.n ax.toNat, .n x.toNat]⟩ = some (encodeAxC ax x c.opcodes.literal)) ∧
  (∀ (s : State) (n : Nat) (k : PoolIdx) (d : RegIdx), CurrentReady s n →
    if n ≤ d.toNat then ∃ t, exec (.literal k d) s = .next t ∧ OnlyFaultEntry s t .registerOutOfBounds
    else if poolLen s.cfg (s.frameAt (s.depth - 1)).method ≤ k.toNat then
      ∃ t, exec (.literal k d) s = .next t ∧ OnlyFaultEntry s t .constantIndexOutOfBounds
    else
      ∃ t, exec (.literal k d) s = .next t ∧
        some (t.reg (s.depth - 1) d) = (poolFor s.cfg (s.frameAt (s.depth - 1)).method)[k.toNat]? ∧
        SameArenaBut s t (s.slotOf (s.depth - 1) d) ∧ OnlyPcAdvances s t (s.depth - 1) ∧
        SameControl s t ∧ t.debugTrace = s.debugTrace)

/-- 41_data_movement R113: LITERAL(index, dest) then MOVE(dest, x) leaves both registers with the pool entry and the
program counter two further. -/
def Obligations.LiteralThenMove : Prop :=
  ∀ (s : State) (n : Nat) (k : PoolIdx) (d x : RegIdx), CurrentReady s n → d.toNat < n → x.toNat < n →
    k.toNat < poolLen s.cfg (s.frameAt (s.depth - 1)).method →
    ∃ t u, exec (.literal k d) s = .next t ∧ exec (.move d x) t = .next u ∧
      some (u.reg (s.depth - 1) x) = (poolFor s.cfg (s.frameAt (s.depth - 1)).method)[k.toNat]? ∧
      some (u.reg (s.depth - 1) d) = (poolFor s.cfg (s.frameAt (s.depth - 1)).method)[k.toNat]? ∧
      (u.frameAt (s.depth - 1)).pc = (s.frameAt (s.depth - 1)).pc + 2

/-- 42_call_return R121 with R122: the encoding and the assembly; the new frame, its window and everything left alone; the
three faults in order. The stack invariant of 10_state R33 says that the frames are frames of this machine. -/
def Obligations.CallFollowsItsRule : Prop :=
  (∀ (c : Config) (a m r : BitVec 8), c.opcodes.Wf →
    decode c (encodeABC a m r c.opcodes.call) = .instr (.call a m r) ∧
    assemble c.opcodes ⟨.call, [.n a.toNat, .n m.toNat, .n r.toNat]⟩ = some (encodeABC a m r c.opcodes.call)) ∧
  (∀ (s : State) (a : RegIdx) (m : MethodIdx) (r : RegIdx), s.cfg.Wf → StackInv s → 0 < s.depth →
    if s.regsAt (s.depth - 1) ≤ a.toNat ∨ s.regsAt (s.depth - 1) ≤ r.toNat then
      ∃ t, exec (.call a m r) s = .next t ∧ OnlyFaultEntry s t .registerOutOfBounds
    else if methodCount s.cfg ≤ m.toNat then
      ∃ t, exec (.call a m r) s = .next t ∧ OnlyFaultEntry s t .methodIndexOutOfBounds
    else if s.depth = s.cfg.image.maxDepth then
      ∃ t, exec (.call a m r) s = .next t ∧ OnlyFaultEntry s t .stackOverflow
    else
      ∃ t, exec (.call a m r) s = .next t ∧ t.depth = s.depth + 1 ∧
        t.frameAt s.depth =
          { method := m, pc := 0, ret := r, wbase := (s.frameAt (s.depth - 1)).wbase + s.regsAt (s.depth - 1) } ∧
        (0 < regCount s.cfg m → t.reg s.depth 0 = s.reg (s.depth - 1) a) ∧
        (∀ j : RegIdx, 0 < j.toNat → j.toNat < regCount s.cfg m → t.reg s.depth j = Value.nil) ∧
        (∀ k, (k < (t.frameAt s.depth).wbase ∨ (t.frameAt s.depth).wbase + regCount s.cfg m ≤ k) →
          t.slot k = s.slot k) ∧
        (∀ l, l ≠ s.depth → t.frameAt l = s.frameAt l) ∧
        t.cfg = s.cfg ∧ t.status = s.status ∧ t.result = s.result ∧ t.fault = s.fault ∧ t.inputs = s.inputs ∧
        t.debugTrace = s.debugTrace)

/-- 42_call_return R122: frame creation, as CALL and the start request use it: the record, the window, the depth, and
everything left alone. -/
def Obligations.FrameCreation : Prop :=
  ∀ (s : State) (m : MethodIdx) (r : RegIdx) (v : Value),
    let wb := if s.depth = 0 then 0
      else (s.frameAt (s.depth - 1)).wbase + regCount s.cfg (s.frameAt (s.depth - 1)).method
    let t := s.pushFrame m r v
    t.frameAt s.depth = { method := m, pc := 0, ret := r, wbase := wb } ∧
    (1 ≤ regCount s.cfg m → t.slot wb = v) ∧
    (∀ i, 1 ≤ i → i < regCount s.cfg m → t.slot (wb + i) = Value.nil) ∧
    (∀ k, (k < wb ∨ wb + regCount s.cfg m ≤ k) → t.slot k = s.slot k) ∧
    (∀ l, l ≠ s.depth → t.frameAt l = s.frameAt l) ∧ t.depth = s.depth + 1 ∧
    t.cfg = s.cfg ∧ t.status = s.status ∧ t.result = s.result ∧ t.fault = s.fault ∧ t.inputs = s.inputs ∧
    t.debugTrace = s.debugTrace

/-- 42_call_return R125 with R126: the encoding and the assembly; the fault; in the root frame the halt; in a frame with a
caller the pop, the delivery to the caller-target register, the caller's program counter; and everything left alone. -/
def Obligations.ReturnFollowsItsRule : Prop :=
  (∀ (c : Config) (a x y : BitVec 8), c.opcodes.Wf →
    decode c (encodeABC a x y c.opcodes.ret) = .instr (.ret a) ∧
    assemble c.opcodes ⟨.ret, [.n a.toNat]⟩ = some (encodeABC a 0 0 c.opcodes.ret)) ∧
  (∀ (s : State) (a : RegIdx), s.cfg.Wf → StackInv s → 0 < s.depth →
    if s.regsAt (s.depth - 1) ≤ a.toNat then
      ∃ t, exec (.ret a) s = .next t ∧ OnlyFaultEntry s t .registerOutOfBounds
    else if s.depth = 1 then
      ∃ t, exec (.ret a) s = .next t ∧ t.depth = 0 ∧ t.status = .halted ∧ t.result = s.reg 0 a ∧
        t.arena = s.arena ∧ t.frames = s.frames ∧ t.cfg = s.cfg ∧ t.fault = s.fault ∧ t.inputs = s.inputs ∧
        t.debugTrace = s.debugTrace
    else
      ∃ t, exec (.ret a) s = .next t ∧ t.depth = s.depth - 1 ∧
        t.reg (s.depth - 2) (s.frameAt (s.depth - 1)).ret = s.reg (s.depth - 1) a ∧
        SameArenaBut s t (s.slotOf (s.depth - 2) (s.frameAt (s.depth - 1)).ret) ∧
        OnlyPcAdvances s t (s.depth - 2) ∧
        t.cfg = s.cfg ∧ t.status = s.status ∧ t.result = s.result ∧ t.fault = s.fault ∧ t.inputs = s.inputs ∧
        t.debugTrace = s.debugTrace)

/-- 42_call_return R127: RETURN in the root frame halts with the Value as RESULT and writes nothing else; the host then
reads that Value as the outcome of the run, and the engine executes no step. -/
def Obligations.ReturnFromRootHalts : Prop :=
  ∀ (s : State) (n : Nat) (a : RegIdx), CurrentReady s n → s.depth = 1 → a.toNat < n →
    ∃ t, exec (.ret a) s = .next t ∧ t.result = s.reg 0 a ∧ t.depth = 0 ∧ t.status = .halted ∧
      t.cfg = s.cfg ∧ t.arena = s.arena ∧ t.frames = s.frames ∧ t.fault = s.fault ∧
      t.debugTrace = s.debugTrace ∧ t.inputs = s.inputs ∧
      t.runOutcome = some (.ok (s.reg 0 a)) ∧ executing t = none

/-- 43_debug R140: the encoding and the assembly, the event with everything left alone, and the fault. -/
def Obligations.HackPrintFollowsItsRule : Prop :=
  (∀ (c : Config) (a x y : BitVec 8), c.opcodes.Wf → c.hackPrintPresent = true →
    decode c (encodeABC a x y c.opcodes.hackPrint) = .instr (.hackPrint a) ∧
    assemble c.opcodes ⟨.hackPrint, [.n a.toNat]⟩ = some (encodeABC a 0 0 c.opcodes.hackPrint)) ∧
  (∀ (s : State) (n : Nat) (a : RegIdx), CurrentReady s n →
    if n ≤ a.toNat then ∃ t, exec (.hackPrint a) s = .next t ∧ OnlyFaultEntry s t .registerOutOfBounds
    else
      ∃ t, exec (.hackPrint a) s = .next t ∧ t.debugTrace = s.debugTrace ++ [s.reg (s.depth - 1) a] ∧
        dbgPort s t = some (valueBits (s.reg (s.depth - 1) a)) ∧
        t.arena = s.arena ∧ OnlyPcAdvances s t (s.depth - 1) ∧ SameControl s t)

/-- 43_debug R141: with HACK_PRINT_PRESENT true the opcode byte decodes to HackPrint; with it false the byte raises
InvalidOpcode, and DEBUG_TRACE stays empty with no event on the port. -/
def Obligations.HackPrintGating : Prop :=
  (∀ (c : Config) (w : Word), c.opcodes.Wf → opcodeByte w = c.opcodes.hackPrint → c.hackPrintPresent = true →
    decode c w = .instr (.hackPrint (w.extractLsb' 24 8))) ∧
  (∀ (s : State) (w : Word), RunInv s → s.status = .running → s.cfg.hackPrintPresent = false →
    codeWord s.cfg (s.frameAt (s.depth - 1)).method (s.frameAt (s.depth - 1)).pc = some w →
    opcodeByte w = s.cfg.opcodes.hackPrint → ∃ t, engineStep s = .next t ∧ OnlyFaultEntry s t .invalidOpcode) ∧
  (∀ s t : State, RunInv s → s.cfg.hackPrintPresent = false → step s = .next t →
    s.debugTrace = [] ∧ t.debugTrace = [] ∧ dbgPort s t = none)

/-- 20_memory R42, 41_data_movement R112: LITERAL is the only instruction that reads a constant pool: every other one does
the same whatever the pools hold. -/
def Obligations.OnlyLiteralReadsPools : Prop :=
  ∀ (pools : List (List Value)) (s : State) (i : Instr), (∀ k d, i ≠ .literal k d) →
    exec i (withPools pools s) = onNext (withPools pools) (exec i s)

/-- 60_exceptions R171: which operands refer to registers; an instruction with one of them at or above the register count
raises RegisterOutOfBounds before anything else is looked at, and nothing but the fault entry happens. -/
def Obligations.RegisterOperandOutOfBounds : Prop :=
  (∀ (a b c : RegIdx) (k : PoolIdx) (m : MethodIdx),
    registerOperands (.move a b) = [a, b] ∧ registerOperands (.literal k c) = [c] ∧
    registerOperands (.call a m c) = [a, c] ∧ registerOperands (.ret a) = [a] ∧ registerOperands (.hackPrint a) = [a]) ∧
  ∀ (s : State) (n : Nat) (i : Instr), CurrentReady s n → (∃ r ∈ registerOperands i, n ≤ r.toNat) →
    ∃ t, exec i s = .next t ∧ OnlyFaultEntry s t .registerOutOfBounds

/-- 60_exceptions R191, execute stage, with R176 and R180: an instruction that leaves the core Faulted has entered one of
its own faults and done nothing else. -/
def Obligations.FaultsArePreciseAndListed : Prop :=
  ∀ (s t : State) (i : Instr), s.status ≠ .faulted → exec i s = .next t → t.status = .faulted →
    ∃ c ∈ executeCauses i, OnlyFaultEntry s t c

/-- 60_exceptions R176: a step of the engine that leaves the core Faulted has made the writes of the fault entry and no
others, and the port FAULT_CAUSE shows the code of the cause. -/
def Obligations.FaultEntryIsAllThatHappens : Prop :=
  ∀ s t : State, s.status = .running → engineStep s = .next t → t.status = .faulted →
    ∃ c, OnlyFaultEntry s t c ∧ t.ports.faultCause = causeCode c

/-- 60_exceptions R179: a step raises the first fault whose condition holds, in the order of the rule, and raises none where
no condition holds. -/
def Obligations.FaultPriority : Prop :=
  ∀ s : State, RunInv s → s.status = .running →
    match stepFault s with
    | some c => ∃ t, engineStep s = .next t ∧ OnlyFaultEntry s t c
    | none => ∃ t, engineStep s = .next t ∧ t.status ≠ .faulted ∧ t.fault = s.fault

/-! ### The step (40_dispatch) and the host (50_host_interface, 70_reset_and_hazards) -/

/-- 40_dispatch R96: with no host event, a Running core executes the instruction its program counter names; the step
itself only uses up the quiet boundary (log entry 5). -/
def Obligations.StepRunsDecodedInstruction : Prop :=
  ∀ (s : State) (w : Word) (i : Instr), s.cfg.Wf → hostQuiet s = true → s.status = .running → 0 < s.depth →
    (s.frameAt (s.depth - 1)).method.toNat < methodCount s.cfg →
    codeWord s.cfg (s.frameAt (s.depth - 1)).method (s.frameAt (s.depth - 1)).pc = some w →
    decode s.cfg w = .instr i →
    step s = exec i { s with inputs := s.inputs.tail }

/-- 40_dispatch R96, R97 with log entries 5 and 8: at a boundary with no host event the step is the engine's, if the core is
Running. -/
def Obligations.QuietStepIsTheEngines : Prop :=
  ∀ s : State, s.cfg.Wf → hostQuiet s = true → s.status = .running →
    step s = engineStep { s with inputs := s.inputs.tail }

/-- 40_dispatch R93, 60_exceptions R177: a word with an invalid opcode raises InvalidOpcode, whatever the registers and the
other 24 bits hold. -/
def Obligations.InvalidOpcodeFaults : Prop :=
  ∀ (s : State) (w : Word), s.cfg.opcodes.Wf → 0 < s.depth →
    (s.frameAt (s.depth - 1)).method.toNat < methodCount s.cfg →
    codeWord s.cfg (s.frameAt (s.depth - 1)).method (s.frameAt (s.depth - 1)).pc = some w →
    (decode s.cfg w = .invalid (opcodeByte w) ↔ opcodeByte w ∉ s.cfg.opcodes.numbers ∨
      (opcodeByte w = s.cfg.opcodes.hackPrint ∧ s.cfg.hackPrintPresent = false)) ∧
    ∀ op, decode s.cfg w = .invalid op → ∃ t, engineStep s = .next t ∧ OnlyFaultEntry s t .invalidOpcode

/-- 40_dispatch R92, 60_exceptions R175: a fetch at or past the end of the code raises PcOutOfBounds and does nothing
else. -/
def Obligations.FetchPastEndFaults : Prop :=
  ∀ s : State, 0 < s.depth → (s.frameAt (s.depth - 1)).method.toNat < methodCount s.cfg →
    codeLen s.cfg (s.frameAt (s.depth - 1)).method ≤ (s.frameAt (s.depth - 1)).pc.toNat →
    ∃ t, engineStep s = .next t ∧ OnlyFaultEntry s t .pcOutOfBounds

/-- 40_dispatch R95: STATUS, DEPTH and the program counters after a step, by outcome. -/
def Obligations.NextStateTable : Prop :=
  ∀ s : State, RunInv s → s.status = .running →
    ∃ t, engineStep s = .next t ∧
      match stepFault s, executing s with
      | some _, _ => t.status = .faulted ∧ t.depth = s.depth ∧ t.frames = s.frames
      | none, some i => NextByTable s t i
      | none, none => False

/-- 40_dispatch R97: Halted and Faulted are quiescent; only the boundary itself is used up (log entry 6). -/
def Obligations.StoppedCoreIsQuiescent : Prop :=
  ∀ s : State, s.cfg.Wf → hostQuiet s = true → s.status ≠ .running → step s = .next { s with inputs := s.inputs.tail }

/-- 50_host_interface R153: an accepted start request whose ENTRY names a code object. -/
def Obligations.StartBeginsRun : Prop :=
  ∀ (s : State) (entry : MethodIdx) (arg : Value), s.status ≠ .running → entry.toNat < methodCount s.cfg →
    let t := s.startRequest entry arg
    t.status = .running ∧ t.depth = 1 ∧ t.result = Value.nil ∧ t.fault = FaultRecord.clear ∧
      t.frameAt 0 = { method := entry, pc := 0, ret := 0, wbase := 0 } ∧
      (1 ≤ regCount s.cfg entry → t.reg 0 0 = arg) ∧
      (∀ j : RegIdx, 0 < j.toNat → j.toNat < regCount s.cfg entry → t.reg 0 j = Value.nil) ∧
      (∀ k, regCount s.cfg entry ≤ k → t.slot k = s.slot k) ∧ (∀ l, l ≠ 0 → t.frameAt l = s.frameAt l) ∧
      t.cfg = s.cfg ∧ t.debugTrace = s.debugTrace ∧ t.inputs = s.inputs

/-- 50_host_interface R154: an accepted start request whose ENTRY names no code object. -/
def Obligations.StartWithBadEntryFaults : Prop :=
  ∀ (s : State) (entry : MethodIdx) (arg : Value), s.status ≠ .running → methodCount s.cfg ≤ entry.toNat →
    let t := s.startRequest entry arg
    t.status = .faulted ∧ t.depth = 0 ∧ t.result = Value.nil ∧
      t.fault = { cause := some .methodIndexOutOfBounds, level := 0, method := entry, pc := 0 } ∧
      t.ports.faultCause = 4 ∧ t.frames = s.frames ∧ t.arena = s.arena ∧ t.cfg = s.cfg ∧
      t.debugTrace = s.debugTrace ∧ t.inputs = s.inputs

/-- 50_host_interface R152: a start request is accepted, and begins a new run, when STATUS is Halted or Faulted; while
Running it is ignored, with no effect at all. -/
def Obligations.StartAcceptedWhenNotRunning : Prop :=
  ∀ (s : State) (entry : MethodIdx) (arg : Value),
    (s.status = .running → s.startRequest entry arg = s) ∧
    (s.status = .halted ∨ s.status = .faulted →
      s.startRequest entry arg =
        if entry.toNat < methodCount s.cfg then s.startRun entry arg else s.startFault entry)

/-- Log entry 5, the model's form of the ports: a host event is the whole step at its boundary, and is used up by it. What
the events do: 50_host_interface R152 to R154, 70_reset_and_hazards R200. -/
def Obligations.HostEventsTakeEffect : Prop :=
  ∀ (s : State) (rest : List HostEvent), s.cfg.Wf →
    (s.inputs = .reset :: rest → step s = .next { s with inputs := rest }.resetInstance) ∧
    (∀ entry arg, s.inputs = .start entry arg :: rest →
      step s = .next ({ s with inputs := rest }.startRequest entry arg))

/-- 10_state R34, 70_reset_and_hazards R201: reset leaves, from any state, the values R34 states, and does not touch the
configuration. What frames and arena hold after it is unspecified there (log entries 2, 3), so nothing is said of it. -/
def Obligations.ResetFromAnyState : Prop :=
  ∀ s : State,
    let t := s.resetInstance
    t.status = .halted ∧ t.depth = 0 ∧ valueBits t.result = 0 ∧ t.ports.faultCause = 0 ∧ t.fault.level = 0 ∧
      t.fault.method = 0 ∧ t.fault.pc = 0 ∧ t.debugTrace = [] ∧ t.cfg = s.cfg

/-- 10_state R34: what the power-on state holds, for every register whose reset value the spec states. -/
def Obligations.PowerOnState : Prop :=
  State.reset.status = .halted ∧ State.reset.depth = 0 ∧ valueBits State.reset.result = 0 ∧
  State.reset.ports.faultCause = 0 ∧ State.reset.fault.level = 0 ∧ State.reset.fault.method = 0 ∧
  State.reset.fault.pc = 0 ∧ State.reset.debugTrace = []

/-- 50_host_interface R157, 93_implementation_defined U16, U17 (log entries 5 and 8, the model's choice of form): a load replaces the stores and MAX_DEPTH and
nothing else, and only while the core is not Running and within the bounds of 00_scope R2. -/
def Obligations.LoadOnlyBetweenRuns : Prop :=
  ∀ (s : State) (im : Image) (rest : List HostEvent), s.cfg.Wf → s.inputs = .load im :: rest →
    if s.status = .running then step s = .refused .loadWhileRunning
    else if im.Wf then step s = .next { s with cfg := { s.cfg with image := im }, inputs := rest }
    else step s = .refused .notAConfiguration

/-- 00_scope R2 with R1, and log entry 8 for pool references: a configuration that breaks a bound is refused. -/
def Obligations.BadConfigurationRefused : Prop :=
  ∀ s : State, ¬ s.cfg.Wf → step s = .refused .notAConfiguration

/-- Log entry 7: a Running core with no frame, which 10_state R33 item 1 excludes, stops by name; so does a frame of no
code object (item 5). -/
def Obligations.BrokenStackStops : Prop :=
  ∀ s : State, s.cfg.Wf → hostQuiet s = true → s.status = .running →
    (s.depth = 0 → step s = .fault .noCurrentFrame) ∧
    (0 < s.depth → methodCount s.cfg ≤ (s.frameAt (s.depth - 1)).method.toNat → step s = .fault .noCodeObject)

/-! ### The whole machine

A step is the model's: the host's event at its boundary if there is one, and otherwise the engine's step (log entry 5). -/

/-- 10_state R27, 60_exceptions R170: the codes that the ports STATUS and FAULT_CAUSE show; 0 means no fault, and the codes
3 and 8 to 15 are never shown. -/
def Obligations.PortCodes : Prop :=
  statusCode .halted = 0 ∧ statusCode .running = 1 ∧ statusCode .faulted = 2 ∧
  (∀ f : FaultRecord, faultCauseCode f = 0 ↔ f.cause = none) ∧
  causeCode .invalidOpcode = 1 ∧ causeCode .registerOutOfBounds = 2 ∧ causeCode .constantIndexOutOfBounds = 3 ∧
  causeCode .methodIndexOutOfBounds = 4 ∧ causeCode .stackOverflow = 5 ∧ causeCode .typeMismatch = 6 ∧
  causeCode .pcOutOfBounds = 7 ∧
  (∀ s : State, s.ports.status ≠ 3 ∧ s.ports.faultCause.toNat < 8)

/-- 10_state R16 with 20_memory R51: a register write is read back from that register and from no other register of any
frame on the stack. -/
def Obligations.NoCrossFrameAliasing : Prop :=
  ∀ (s : State) (l l' : Nat) (i i' : RegIdx) (v : Value), StackInv s → l < s.depth → l' < s.depth →
    i.toNat < s.regsAt l → i'.toNat < s.regsAt l' →
    (s.setReg l i v).reg l' i' = if l = l' ∧ i = i' then v else s.reg l' i'

/-- 10_state R21 with 40_dispatch R102: DEPTH changes only in reset, in a start request, by one up in CALL and by one down
in RETURN. -/
def Obligations.DepthWriters : Prop :=
  ∀ s t : State, step s = .next t → t.depth ≠ s.depth →
    (∃ rest, s.inputs = .reset :: rest) ∨ (∃ e a rest, s.inputs = .start e a :: rest) ∨
    (∃ a m r, executing s = some (.call a m r) ∧ t.depth = s.depth + 1) ∨
    (∃ a, executing s = some (.ret a) ∧ t.depth + 1 = s.depth)

/-- 10_state R33, first half: the invariants hold after reset. The state after reset holds values that are the model's own
(log entries 2, 3, 4, 5). -/
def Obligations.InvAtReset : Prop := Inv State.reset

/-- 10_state R33: every step keeps the invariants, but a load that replaces the stores under a faulted run's frames (log
entry 9). -/
def Obligations.StepKeepsInv : Prop :=
  ∀ s t : State, Inv s → loadsWhileFaulted s = false → step s = .next t → Inv t

/-- 10_state R33 where the frames are in use: every step at all keeps the invariants, those on the frames holding while the
core is Running (log entry 9). -/
def Obligations.StepKeepsRunInv : Prop :=
  (∀ s : State, Inv s → RunInv s) ∧ ∀ s t : State, RunInv s → step s = .next t → RunInv t

/-- 40_dispatch R98, R90: the step is total on Running states that the invariants allow: the engine always has a next
state, so the model's own stops (log entries 7, 8) are out of reach. -/
def Obligations.RunningCoreSteps : Prop :=
  ∀ s : State, RunInv s → hostQuiet s = true → s.status = .running → ∃ t, step s = .next t

/-- 10_state R15, R16: the windows of the frames on the stack lie inside the arena and are pairwise disjoint. -/
def Obligations.WindowsDisjointInsideArena : Prop :=
  ∀ s : State, s.cfg.Wf → StackInv s →
    (∀ l, l < s.depth → (s.frameAt l).wbase + s.regsAt l ≤ 256 * (l + 1) ∧ 256 * (l + 1) ≤ arenaSlots s.cfg) ∧
    (∀ (l l' : Nat) (i i' : RegIdx), l < s.depth → l' < s.depth → i.toNat < s.regsAt l → i'.toNat < s.regsAt l' →
      l ≠ l' → s.slotOf l i ≠ s.slotOf l' i')

/-- 40_dispatch R101, R102, R103 and 10_state R20, R28, R30: the datapath adders do not wrap, and what they give fits the
field it is stored in: the incremented program counter; the depth counter, up and down, in DEPTH_BITS; the window bases of
the frames on the stack and of a frame pushed now in WB_BITS; the slot addresses in WB_BITS; and the FAULT_LEVEL that a
fault records in DEPTH_BITS. -/
def Obligations.DatapathNeverWraps : Prop :=
  (∀ s : State, s.cfg.Wf → StackInv s →
    (∀ l, l < s.depth → (s.frameAt l).pc.toNat < codeLen s.cfg (s.frameAt l).method →
      ((s.frameAt l).pc + 1).toNat = (s.frameAt l).pc.toNat + 1) ∧
    s.depth < 2 ^ depthBits s.cfg ∧ (s.depth < s.cfg.image.maxDepth → s.depth + 1 < 2 ^ depthBits s.cfg) ∧
    (∀ l, l < s.depth → (s.frameAt l).wbase < 2 ^ wbBits s.cfg ∧
      (s.frameAt l).wbase + s.regsAt l ≤ arenaSlots s.cfg ∧
      (s.frameAt l).wbase + s.regsAt l < 2 ^ (wbBits s.cfg + 1)) ∧
    (∀ (m : MethodIdx) (r : RegIdx) (v : Value), s.depth < s.cfg.image.maxDepth →
      ((s.pushFrame m r v).frameAt s.depth).wbase < 2 ^ wbBits s.cfg) ∧
    (∀ (l : Nat) (i : RegIdx), l < s.depth → i.toNat < s.regsAt l →
      s.slotOf l i < arenaSlots s.cfg ∧ s.slotOf l i < 2 ^ wbBits s.cfg) ∧
    (∀ c, (s.enterFault c).fault.level < 2 ^ depthBits s.cfg)) ∧
  (∀ s t : State, RunInv s → s.status = .running → engineStep s = .next t → t.depth ≠ s.depth →
    (∃ a m r, executing s = some (.call a m r) ∧ s.depth < s.cfg.image.maxDepth ∧ t.depth = s.depth + 1 ∧
      t.depth ≤ s.cfg.image.maxDepth) ∨
    (∃ a, executing s = some (.ret a) ∧ 1 ≤ s.depth ∧ t.depth = s.depth - 1)) ∧
  (∀ (s : State) (entry : MethodIdx) (arg : Value), s.cfg.Wf → (s.startRun entry arg).depth = 0 + 1 ∧
    (s.startRun entry arg).depth ≤ s.cfg.image.maxDepth)

/-- 10_state R16, 42_call_return R123, R124: a step of the engine changes no register of a suspended frame, but the
caller-target register when the frame above it returns. -/
def Obligations.SuspendedRegistersKept : Prop :=
  ∀ (s t : State) (l : Nat) (i : RegIdx), RunInv s → hostQuiet s = true → s.status = .running → step s = .next t →
    l < s.depth - 1 → i.toNat < s.regsAt l →
    t.reg l i = s.reg l i ∨
      (l = s.depth - 2 ∧ i = (s.frameAt (s.depth - 1)).ret ∧ t.depth = s.depth - 1 ∧
        ∃ a, executing s = some (.ret a) ∧ t.reg l i = s.reg (s.depth - 1) a)

/-- 20_memory R43, R54, 70_reset_and_hazards R201: no step but the host's load changes the stores or the configuration. -/
def Obligations.StoresReadOnly : Prop :=
  ∀ s t : State, step s = .next t → (∀ im rest, s.inputs ≠ .load im :: rest) → t.cfg = s.cfg

/-- 10_state R31: but for reset, the trace only grows, by at most one Value a step, and only in HACK_PRINT. -/
def Obligations.TraceOnlyGrows : Prop :=
  ∀ s t : State, step s = .next t → (∀ rest, s.inputs ≠ .reset :: rest) →
    t.debugTrace = s.debugTrace ∨
      (∃ a, executing s = some (.hackPrint a) ∧ t.debugTrace = s.debugTrace ++ [s.reg (s.depth - 1) a])

/-- 10_state R29: RESULT changes only in reset, in a start request and in a RETURN of the root frame. -/
def Obligations.ResultWriters : Prop :=
  ∀ s t : State, step s = .next t → t.result ≠ s.result →
    (∃ rest, s.inputs = .reset :: rest) ∨ (∃ e a rest, s.inputs = .start e a :: rest ∧ t.result = Value.nil) ∨
    (s.depth = 1 ∧ ∃ a, executing s = some (.ret a) ∧ t.result = s.reg 0 a)

/-- 60_exceptions R178: no step records TypeMismatch. -/
def Obligations.TypeMismatchNeverRaised : Prop :=
  ∀ s t : State, step s = .next t → t.fault.cause = some .typeMismatch → s.fault.cause = some .typeMismatch

/-- 42_call_return R128: over any sequence of steps in which no fault is raised and the host does nothing, DEPTH at the end
plus the RETURNs completed is DEPTH at the start plus the CALLs completed; a whole run, from an accepted start request to
Halted, completes one more RETURN than CALLs and ends with DEPTH 0. -/
def Obligations.CallReturnBalance : Prop :=
  (∀ (s t : State) (k : Nat) (n : Tally), RunInv s → s.inputs = [] → tally k s ⟨0, 0⟩ = some (n, t) →
    t.depth + n.returns = s.depth + n.calls) ∧
  (∀ (s t : State) (entry : MethodIdx) (arg : Value) (k : Nat) (n : Tally), RunInv s → s.inputs = [] →
    s.status ≠ .running → entry.toNat < methodCount s.cfg →
    tally k (s.startRequest entry arg) ⟨0, 0⟩ = some (n, t) → t.status = .halted →
    n.returns = n.calls + 1 ∧ t.depth = 0)

/-- 40_dispatch R99, 50_host_interface R155: a run that the host starts and then leaves alone has an outcome within
L * (1 + L + ... + L^(D-1)) + 1 steps; it creates at most 1 + L + ... + L^(D-1) frames, the root frame and one for each CALL;
and from every Running state the engine reaches Halted or Faulted. -/
def Obligations.EveryRunEnds : Prop :=
  (∀ (s : State) (entry : MethodIdx) (arg : Value), RunInv s → s.status ≠ .running →
    ∃ t, runLoop (runBound s.cfg) (({ s with inputs := [] }).startRequest entry arg) = some t ∧
      t.status ≠ .running ∧ run s entry arg = t.runOutcome) ∧
  (∀ (s t : State) (entry : MethodIdx) (arg : Value) (k : Nat) (n : Tally), RunInv s → s.status ≠ .running →
    tally k (({ s with inputs := [] }).startRequest entry arg) ⟨0, 0⟩ = some (n, t) → n.calls + 1 ≤ frameBound s.cfg) ∧
  (∀ s : State, RunInv s → s.inputs = [] → s.status = .running →
    ∃ (k : Nat) (t : State), runLoop k s = some t ∧ t.status ≠ .running)

/-- 42_call_return R123, R124: inside a call nothing of the suspended frames changes: through any number of steps in which
the stack stays as deep as it is now, every frame below the current one keeps its record and all its registers. -/
def Obligations.CallersUntouchedInsideCall : Prop :=
  ∀ (s t : State) (k : Nat), RunInv s → s.inputs = [] → s.status = .running → stepsAbove s.depth k s = some t →
    ∀ l, l < s.depth - 1 → t.frameAt l = s.frameAt l ∧
      ∀ i : RegIdx, i.toNat < s.regsAt l → t.reg l i = s.reg l i

/-- 10_state R12: the core never interprets a Value: replacing every Value in the machine and its stores by its image under
any function that keeps Nil, one that sends other Values to Nil or makes two Values equal included, replaces them in the
outcome of the engine's step and changes nothing else; so with a start request and its argument. -/
def Obligations.ValuesNeverInterpreted : Prop :=
  ∀ (f : Value → Value) (s s' : State), f Value.nil = Value.nil → RenamedBy f s s' →
    OutcomeRenamedBy f (engineStep s) (engineStep s') ∧
    ∀ (entry : MethodIdx) (arg : Value), RenamedBy f (s.startRequest entry arg) (s'.startRequest entry (f arg))

/-- 50_host_interface R154, last sentences: a step enters Faulted only by a bad start request or by the fault entry of the
engine in a frame; Faulted with an empty stack is entered, and its record written, by a bad start request alone; and so
its record is always the one of that rule. The step's boundary is log entry 5. -/
def Obligations.OnlyBadStartFaultsWithEmptyStack : Prop :=
  (∀ s t : State, step s = .next t → t.status = .faulted → s.status ≠ .faulted →
    (∃ entry arg rest, BadStart s entry arg rest) ∨
    (hostQuiet s = true ∧ s.status = .running ∧ 0 < s.depth ∧
      ∃ c, OnlyFaultEntry { s with inputs := s.inputs.tail } t c)) ∧
  (∀ s t : State, step s = .next t → t.status = .faulted → t.depth = 0 →
    (∃ entry arg rest, BadStart s entry arg rest ∧
      t.fault = { cause := some .methodIndexOutOfBounds, level := 0, method := entry, pc := 0 }) ∨
    (s.status = .faulted ∧ s.depth = 0 ∧ t.fault = s.fault)) ∧
  EmptyFaultInv State.reset ∧ (∀ s t : State, EmptyFaultInv s → step s = .next t → EmptyFaultInv t)

/-- 10_state R30, R28: FAULT_LEVEL fits DEPTH_BITS and the fault record is all zero where no fault is recorded: so after
reset, and kept by every step, but a load in Faulted, which can make DEPTH_BITS smaller (log entry 9). -/
def Obligations.FaultLevelFitsItsField : Prop :=
  FaultLevelInv State.reset ∧
  ∀ s t : State, RunInv s → FaultLevelInv s → loadsWhileFaulted s = false → step s = .next t → FaultLevelInv t
end

