-- ==== Sys2Proof/Laws/Codec.lean ====
section
/-!
SUPPORT. The codec's fields taken back out of a packed word, one lemma per field (30_encoding R62, R63, R67 to R70), and
the full decoder on a word whose opcode byte is known (R75).
-/

namespace Sys2Proof

section
variable (a b c : BitVec 8) (ax : BitVec 16) (op : Opcode)

@[simp] theorem opcodeByte_encodeABC : opcodeByte (encodeABC a b c op) = op := by
  ext i hi
  simp [opcodeByte, encodeABC, BitVec.getElem_extractLsb', hi]
  grind

@[simp] theorem opcodeByte_encodeAxC : opcodeByte (encodeAxC ax c op) = op := by
  ext i hi
  simp [opcodeByte, encodeAxC, BitVec.getElem_extractLsb', hi]
  grind

@[simp] theorem fieldA_encodeABC : (encodeABC a b c op).extractLsb' 24 8 = a := by
  ext i hi
  simp [encodeABC, BitVec.getElem_extractLsb', hi]
  grind

@[simp] theorem fieldB_encodeABC : (encodeABC a b c op).extractLsb' 16 8 = b := by
  ext i hi
  simp [encodeABC, BitVec.getElem_extractLsb', hi]
  grind

@[simp] theorem fieldC_encodeABC : (encodeABC a b c op).extractLsb' 8 8 = c := by
  ext i hi
  simp [encodeABC, BitVec.getElem_extractLsb', hi]
  grind

@[simp] theorem fieldAx_encodeAxC : (encodeAxC ax c op).extractLsb' 16 16 = ax := by
  ext i hi
  simp [encodeAxC, BitVec.getElem_extractLsb', hi]
  grind

@[simp] theorem fieldC_encodeAxC : (encodeAxC ax c op).extractLsb' 8 8 = c := by
  ext i hi
  simp [encodeAxC, BitVec.getElem_extractLsb', hi]
  grind

end

/-- The opcode numbers of an admissible map differ pairwise (00_scope R1). -/
theorem OpcodeMap.Wf.ne {m : OpcodeMap} (h : m.Wf) :
    m.move ≠ m.literal ∧ m.move ≠ m.call ∧ m.move ≠ m.ret ∧ m.move ≠ m.hackPrint ∧
    m.literal ≠ m.call ∧ m.literal ≠ m.ret ∧ m.literal ≠ m.hackPrint ∧
    m.call ≠ m.ret ∧ m.call ≠ m.hackPrint ∧ m.ret ≠ m.hackPrint := by
  have := h.1
  simp [OpcodeMap.numbers] at this
  tauto

end Sys2Proof
end

