-- ==== Sys2Proof/Laws/Store.lean ====
section
/-!
SUPPORT. What the sparse arrays do: reading after a write, keeping the canonical form, and equality of canonical arrays.
-/

namespace Sys2Proof.Machine

section
variable {α : Type} (d : α)

theorem storeRead_erase (st : List (Nat × α)) (a b : Nat) :
    storeRead d (storeErase a st) b = if b = a then d else storeRead d st b := by
  induction st with
  | nil => simp [storeErase, storeRead]
  | cons c rest ih =>
    obtain ⟨k, v⟩ := c
    by_cases hak : a = k
    · subst hak
      by_cases hb : b = a
      · subst hb
        simpa [storeErase] using ih
      · simp [storeErase, storeRead, ih, hb]
    · by_cases hbk : b = k
      · subst hbk
        simp [storeErase, storeRead, hak, Ne.symm hak]
      · simp [storeErase, storeRead, hak, hbk, ih]

theorem storeRead_insert (st : List (Nat × α)) (a b : Nat) (x : α) :
    storeRead d (storeInsert a x st) b = if b = a then x else storeRead d st b := by
  induction st with
  | nil => simp [storeInsert, storeRead]
  | cons c rest ih =>
    obtain ⟨k, v⟩ := c
    simp only [storeInsert]
    split
    · simp [storeRead]
    · split
      · rename_i hak
        subst hak
        by_cases hb : b = a <;> simp [storeRead, hb]
      · rename_i hak
        by_cases hbk : b = k
        · subst hbk
          simp [storeRead, Ne.symm hak]
        · simp [storeRead, hbk, ih]

/-- Reading after a write: the written element at its index, the old one elsewhere. -/
theorem storeRead_write [DecidableEq α] (st : List (Nat × α)) (a b : Nat) (x : α) :
    storeRead d (storeWrite d st a x) b = if b = a then x else storeRead d st b := by
  simp only [storeWrite]
  split
  · rename_i hx
    rw [storeRead_erase, hx]
  · rw [storeRead_insert]

theorem mem_of_mem_erase {st : List (Nat × α)} {a : Nat} {c : Nat × α} (h : c ∈ storeErase a st) :
    c ∈ st ∧ c.1 ≠ a := by
  induction st with
  | nil => simp [storeErase] at h
  | cons e rest ih =>
    obtain ⟨k, v⟩ := e
    by_cases hak : a = k
    · simp only [storeErase, hak, if_true] at h ih ⊢
      exact ⟨List.mem_cons_of_mem _ (ih h).1, (ih h).2⟩
    · simp only [storeErase, hak, if_false, List.mem_cons] at h
      rcases h with rfl | h
      · exact ⟨List.mem_cons_self .., fun h => hak h.symm⟩
      · exact ⟨List.mem_cons_of_mem _ (ih h).1, (ih h).2⟩

theorem mem_of_mem_insert {st : List (Nat × α)} {a : Nat} {x : α} {c : Nat × α}
    (h : c ∈ storeInsert a x st) : c = (a, x) ∨ c ∈ st := by
  induction st with
  | nil => simpa [storeInsert] using h
  | cons e rest ih =>
    obtain ⟨k, v⟩ := e
    simp only [storeInsert] at h
    split at h
    · simpa using h
    · split at h
      · rcases List.mem_cons.1 h with rfl | h
        · exact .inl rfl
        · exact .inr (List.mem_cons_of_mem _ h)
      · rcases List.mem_cons.1 h with rfl | h
        · exact .inr (List.mem_cons_self ..)
        · exact (ih h).imp id (List.mem_cons_of_mem _)

theorem storeErase_wf {st : List (Nat × α)} (a : Nat) (h : StoreWf d st) : StoreWf d (storeErase a st) := by
  refine ⟨?_, fun c hc => h.2 c (mem_of_mem_erase hc).1⟩
  have hp := h.1
  clear h
  induction st with
  | nil => simp [storeErase]
  | cons e rest ih =>
    obtain ⟨k, v⟩ := e
    rw [List.pairwise_cons] at hp
    simp only [storeErase]
    split
    · exact ih hp.2
    · exact List.pairwise_cons.2 ⟨fun c hc => hp.1 c (mem_of_mem_erase hc).1, ih hp.2⟩

theorem storeInsert_wf {st : List (Nat × α)} (a : Nat) {x : α} (hx : x ≠ d) (h : StoreWf d st) :
    StoreWf d (storeInsert a x st) := by
  refine ⟨?_, fun c hc => ?_⟩
  · have hp := h.1
    clear h
    induction st with
    | nil => simp [storeInsert]
    | cons e rest ih =>
      obtain ⟨k, v⟩ := e
      rw [List.pairwise_cons] at hp
      simp only [storeInsert]
      split
      · rename_i hlt
        refine List.pairwise_cons.2 ⟨fun c hc => ?_, List.pairwise_cons.2 hp⟩
        rcases List.mem_cons.1 hc with rfl | hc
        · exact hlt
        · exact hlt.trans (hp.1 c hc)
      · split
        · rename_i hak
          subst hak
          exact List.pairwise_cons.2 hp
        · refine List.pairwise_cons.2 ⟨fun c hc => ?_, ih hp.2⟩
          rcases mem_of_mem_insert hc with rfl | hc
          · show k < a
            omega
          · exact hp.1 c hc
  · rcases mem_of_mem_insert hc with rfl | hc
    · exact hx
    · exact h.2 c hc

/-- A write keeps the canonical form. -/
theorem storeWrite_wf [DecidableEq α] {st : List (Nat × α)} (a : Nat) (x : α) (h : StoreWf d st) :
    StoreWf d (storeWrite d st a x) := by
  simp only [storeWrite]
  split
  · exact storeErase_wf d a h
  · rename_i hx
    exact storeInsert_wf d a hx h

theorem storeRead_of_forall_lt {st : List (Nat × α)} {a : Nat} (h : ∀ c ∈ st, a < c.1) :
    storeRead d st a = d := by
  induction st with
  | nil => rfl
  | cons e rest ih =>
    obtain ⟨k, v⟩ := e
    have hk : a < k := h (k, v) (List.mem_cons_self ..)
    have : a ≠ k := by omega
    simp [storeRead, this, ih fun c hc => h c (List.mem_cons_of_mem _ hc)]

/-- Canonical arrays that read alike everywhere are equal lists. -/
theorem store_ext {st st' : List (Nat × α)} (h : StoreWf d st) (h' : StoreWf d st')
    (hr : ∀ a, storeRead d st a = storeRead d st' a) : st = st' := by
  induction st generalizing st' with
  | nil =>
    cases st' with
    | nil => rfl
    | cons e rest =>
      obtain ⟨k, v⟩ := e
      have := hr k
      simp only [storeRead, if_true] at this
      exact absurd this.symm (h'.2 (k, v) (List.mem_cons_self ..))
  | cons e rest ih =>
    obtain ⟨k, v⟩ := e
    have hv : v ≠ d := h.2 (k, v) (List.mem_cons_self ..)
    have hp := List.pairwise_cons.1 h.1
    cases st' with
    | nil =>
      have := hr k
      simp only [storeRead, if_true] at this
      exact absurd this hv
    | cons e' rest' =>
      obtain ⟨k', v'⟩ := e'
      have hv' : v' ≠ d := h'.2 (k', v') (List.mem_cons_self ..)
      have hp' := List.pairwise_cons.1 h'.1
      have hkk : k = k' := by
        rcases Nat.lt_trichotomy k k' with hlt | heq | hgt
        · have h0 := hr k
          rw [storeRead_of_forall_lt d (st := (k', v') :: rest')] at h0
          · simp only [storeRead, if_true] at h0
            exact absurd h0 hv
          · intro c hc
            rcases List.mem_cons.1 hc with rfl | hc
            · exact hlt
            · exact hlt.trans (hp'.1 c hc)
        · exact heq
        · have h0 := hr k'
          rw [storeRead_of_forall_lt d (st := (k, v) :: rest)] at h0
          · simp only [storeRead, if_true] at h0
            exact absurd h0.symm hv'
          · intro c hc
            rcases List.mem_cons.1 hc with rfl | hc
            · exact hgt
            · exact hgt.trans (hp.1 c hc)
      subst hkk
      have hvv : v = v' := by simpa [storeRead] using hr k
      subst hvv
      congr 1
      refine ih ⟨hp.2, fun c hc => h.2 c (List.mem_cons_of_mem _ hc)⟩
        ⟨hp'.2, fun c hc => h'.2 c (List.mem_cons_of_mem _ hc)⟩ fun a => ?_
      by_cases ha : a = k
      · subst ha
        rw [storeRead_of_forall_lt d hp.1, storeRead_of_forall_lt d hp'.1]
      · simpa [storeRead, ha] using hr a

end

end Sys2Proof.Machine
end

