-- ==== Sys2Proof/Laws/State.lean ====
section
/-!
SUPPORT. The fields of the state after each update, and reads of frames and slots after it: no later proof unfolds an update.
-/

namespace Sys2Proof.Machine

section
variable (s : State) (l k : Nat) (f : Frame) (v : Value) (c : Cause)

@[simp] theorem setFrame_cfg : (s.setFrame l f).cfg = s.cfg := rfl
@[simp] theorem setFrame_arena : (s.setFrame l f).arena = s.arena := rfl
@[simp] theorem setFrame_depth : (s.setFrame l f).depth = s.depth := rfl
@[simp] theorem setFrame_status : (s.setFrame l f).status = s.status := rfl
@[simp] theorem setFrame_result : (s.setFrame l f).result = s.result := rfl
@[simp] theorem setFrame_fault : (s.setFrame l f).fault = s.fault := rfl
@[simp] theorem setFrame_debugTrace : (s.setFrame l f).debugTrace = s.debugTrace := rfl
@[simp] theorem setFrame_inputs : (s.setFrame l f).inputs = s.inputs := rfl
@[simp] theorem setFrame_slot : (s.setFrame l f).slot k = s.slot k := rfl

@[simp] theorem setSlot_cfg : (s.setSlot k v).cfg = s.cfg := rfl
@[simp] theorem setSlot_frames : (s.setSlot k v).frames = s.frames := rfl
@[simp] theorem setSlot_depth : (s.setSlot k v).depth = s.depth := rfl
@[simp] theorem setSlot_status : (s.setSlot k v).status = s.status := rfl
@[simp] theorem setSlot_result : (s.setSlot k v).result = s.result := rfl
@[simp] theorem setSlot_fault : (s.setSlot k v).fault = s.fault := rfl
@[simp] theorem setSlot_debugTrace : (s.setSlot k v).debugTrace = s.debugTrace := rfl
@[simp] theorem setSlot_inputs : (s.setSlot k v).inputs = s.inputs := rfl
@[simp] theorem setSlot_frameAt : (s.setSlot k v).frameAt l = s.frameAt l := rfl

@[simp] theorem advanceAt_cfg : (s.advanceAt l).cfg = s.cfg := rfl
@[simp] theorem advanceAt_arena : (s.advanceAt l).arena = s.arena := rfl
@[simp] theorem advanceAt_depth : (s.advanceAt l).depth = s.depth := rfl
@[simp] theorem advanceAt_status : (s.advanceAt l).status = s.status := rfl
@[simp] theorem advanceAt_result : (s.advanceAt l).result = s.result := rfl
@[simp] theorem advanceAt_fault : (s.advanceAt l).fault = s.fault := rfl
@[simp] theorem advanceAt_debugTrace : (s.advanceAt l).debugTrace = s.debugTrace := rfl
@[simp] theorem advanceAt_inputs : (s.advanceAt l).inputs = s.inputs := rfl
@[simp] theorem advanceAt_slot : (s.advanceAt l).slot k = s.slot k := rfl

@[simp] theorem enterFault_cfg : (s.enterFault c).cfg = s.cfg := rfl
@[simp] theorem enterFault_arena : (s.enterFault c).arena = s.arena := rfl
@[simp] theorem enterFault_frames : (s.enterFault c).frames = s.frames := rfl
@[simp] theorem enterFault_depth : (s.enterFault c).depth = s.depth := rfl
@[simp] theorem enterFault_status : (s.enterFault c).status = .faulted := rfl
@[simp] theorem enterFault_result : (s.enterFault c).result = s.result := rfl
@[simp] theorem enterFault_cause : (s.enterFault c).fault.cause = some c := rfl
@[simp] theorem enterFault_level : (s.enterFault c).fault.level = s.depth - 1 := rfl
@[simp] theorem enterFault_method : (s.enterFault c).fault.method = s.current.method := rfl
@[simp] theorem enterFault_pc : (s.enterFault c).fault.pc = s.current.pc := rfl
@[simp] theorem enterFault_debugTrace : (s.enterFault c).debugTrace = s.debugTrace := rfl
@[simp] theorem enterFault_inputs : (s.enterFault c).inputs = s.inputs := rfl

@[simp] theorem halt_cfg : (s.halt v).cfg = s.cfg := rfl
@[simp] theorem halt_arena : (s.halt v).arena = s.arena := rfl
@[simp] theorem halt_frames : (s.halt v).frames = s.frames := rfl
@[simp] theorem halt_depth : (s.halt v).depth = 0 := rfl
@[simp] theorem halt_status : (s.halt v).status = .halted := rfl
@[simp] theorem halt_result : (s.halt v).result = v := rfl
@[simp] theorem halt_fault : (s.halt v).fault = s.fault := rfl
@[simp] theorem halt_debugTrace : (s.halt v).debugTrace = s.debugTrace := rfl
@[simp] theorem halt_inputs : (s.halt v).inputs = s.inputs := rfl

@[simp] theorem emitDebug_cfg : (s.emitDebug v).cfg = s.cfg := rfl
@[simp] theorem emitDebug_arena : (s.emitDebug v).arena = s.arena := rfl
@[simp] theorem emitDebug_frames : (s.emitDebug v).frames = s.frames := rfl
@[simp] theorem emitDebug_depth : (s.emitDebug v).depth = s.depth := rfl
@[simp] theorem emitDebug_status : (s.emitDebug v).status = s.status := rfl
@[simp] theorem emitDebug_result : (s.emitDebug v).result = s.result := rfl
@[simp] theorem emitDebug_fault : (s.emitDebug v).fault = s.fault := rfl
@[simp] theorem emitDebug_debugTrace : (s.emitDebug v).debugTrace = s.debugTrace ++ [v] := rfl
@[simp] theorem emitDebug_inputs : (s.emitDebug v).inputs = s.inputs := rfl
@[simp] theorem emitDebug_frameAt : (s.emitDebug v).frameAt l = s.frameAt l := rfl
@[simp] theorem emitDebug_slot : (s.emitDebug v).slot k = s.slot k := rfl

/-- A frame record after a frame write. -/
theorem setFrame_frameAt : (s.setFrame l f).frameAt k = if k = l then f else s.frameAt k :=
  storeRead_write Frame.blank s.frames l k f

/-- A slot after a slot write. -/
theorem setSlot_slot (j : Nat) : (s.setSlot k v).slot j = if j = k then v else s.slot j :=
  storeRead_write Value.nil s.arena k j v

/-- The records after a program counter advances. -/
theorem advanceAt_frameAt :
    (s.advanceAt l).frameAt k = if k = l then { s.frameAt l with pc := (s.frameAt l).pc + 1 } else s.frameAt k :=
  setFrame_frameAt s l k _

end

section
variable (s : State) (l k : Nat) (i : RegIdx) (v : Value)

@[simp] theorem writeReg_cfg : (s.writeReg i v).cfg = s.cfg := rfl
@[simp] theorem writeReg_depth : (s.writeReg i v).depth = s.depth := rfl
@[simp] theorem writeReg_status : (s.writeReg i v).status = s.status := rfl
@[simp] theorem writeReg_result : (s.writeReg i v).result = s.result := rfl
@[simp] theorem writeReg_fault : (s.writeReg i v).fault = s.fault := rfl
@[simp] theorem writeReg_debugTrace : (s.writeReg i v).debugTrace = s.debugTrace := rfl
@[simp] theorem writeReg_inputs : (s.writeReg i v).inputs = s.inputs := rfl
@[simp] theorem writeReg_frames : (s.writeReg i v).frames = s.frames := rfl
@[simp] theorem writeReg_frameAt : (s.writeReg i v).frameAt l = s.frameAt l := rfl

@[simp] theorem setReg_cfg : (s.setReg l i v).cfg = s.cfg := rfl
@[simp] theorem setReg_depth : (s.setReg l i v).depth = s.depth := rfl
@[simp] theorem setReg_status : (s.setReg l i v).status = s.status := rfl
@[simp] theorem setReg_result : (s.setReg l i v).result = s.result := rfl
@[simp] theorem setReg_fault : (s.setReg l i v).fault = s.fault := rfl
@[simp] theorem setReg_debugTrace : (s.setReg l i v).debugTrace = s.debugTrace := rfl
@[simp] theorem setReg_inputs : (s.setReg l i v).inputs = s.inputs := rfl
@[simp] theorem setReg_frames : (s.setReg l i v).frames = s.frames := rfl
@[simp] theorem setReg_frameAt : (s.setReg l i v).frameAt k = s.frameAt k := rfl

@[simp] theorem advance_cfg : s.advance.cfg = s.cfg := rfl
@[simp] theorem advance_depth : s.advance.depth = s.depth := rfl
@[simp] theorem advance_status : s.advance.status = s.status := rfl
@[simp] theorem advance_result : s.advance.result = s.result := rfl
@[simp] theorem advance_fault : s.advance.fault = s.fault := rfl
@[simp] theorem advance_debugTrace : s.advance.debugTrace = s.debugTrace := rfl
@[simp] theorem advance_inputs : s.advance.inputs = s.inputs := rfl
@[simp] theorem advance_arena : s.advance.arena = s.arena := rfl
@[simp] theorem advance_slot : s.advance.slot k = s.slot k := rfl

/-- A slot after a register write. -/
theorem setReg_slot : (s.setReg l i v).slot k = if k = s.slotOf l i then v else s.slot k :=
  setSlot_slot s (s.slotOf l i) v k

end

section
variable (s : State) (m : MethodIdx) (r : RegIdx) (v : Value) (k : Nat)

@[simp] theorem pushFrame_cfg : (s.pushFrame m r v).cfg = s.cfg := rfl
@[simp] theorem pushFrame_depth : (s.pushFrame m r v).depth = s.depth + 1 := rfl
@[simp] theorem pushFrame_status : (s.pushFrame m r v).status = s.status := rfl
@[simp] theorem pushFrame_result : (s.pushFrame m r v).result = s.result := rfl
@[simp] theorem pushFrame_fault : (s.pushFrame m r v).fault = s.fault := rfl
@[simp] theorem pushFrame_debugTrace : (s.pushFrame m r v).debugTrace = s.debugTrace := rfl
@[simp] theorem pushFrame_inputs : (s.pushFrame m r v).inputs = s.inputs := rfl

/-- The records after a push. -/
theorem pushFrame_frameAt :
    (s.pushFrame m r v).frameAt k =
      if k = s.depth then { method := m, pc := 0, ret := r, wbase := s.newBase } else s.frameAt k :=
  storeRead_write Frame.blank s.frames s.depth k _

theorem storeRead_fillNil (b n : Nat) (a : List (Nat × Value)) :
    storeRead Value.nil (fillNil b n a) k =
      if b ≤ k ∧ k < b + n then Value.nil else storeRead Value.nil a k := by
  induction n with
  | zero => simp [fillNil]
  | succ n ih =>
    rw [fillNil, storeRead_write, ih]
    by_cases h1 : k = b + n
    · simp [h1]
    · by_cases h2 : b ≤ k ∧ k < b + n
      · have : b ≤ k ∧ k < b + (n + 1) := by omega
        simp [h1, h2, this]
      · have : ¬(b ≤ k ∧ k < b + (n + 1)) := by omega
        simp [h1, h2, this]

/-- What a fresh window holds, and that nothing outside it changes (42_call_return R122). -/
theorem storeRead_initWindow (b n : Nat) (a : List (Nat × Value)) :
    storeRead Value.nil (initWindow b n v a) k =
      if k = b ∧ 0 < n then v
      else if b ≤ k ∧ k < b + n then Value.nil
      else storeRead Value.nil a k := by
  unfold initWindow
  by_cases hn : n = 0
  · simp [hn]
  · have hp : 0 < n := by omega
    rw [if_neg hn, storeRead_write, storeRead_fillNil]
    by_cases hk : k = b
    · simp [hk, hp]
    · have e : (b + 1 ≤ k ∧ k < b + 1 + (n - 1)) ↔ (b ≤ k ∧ k < b + n) := by omega
      simp only [hk, e, false_and, if_false]

/-- The slots after a push. -/
theorem pushFrame_slot :
    (s.pushFrame m r v).slot k =
      if k = s.newBase ∧ 0 < regCount s.cfg m then v
      else if s.newBase ≤ k ∧ k < s.newBase + regCount s.cfg m then Value.nil
      else s.slot k :=
  storeRead_initWindow v k s.newBase (regCount s.cfg m) s.arena

@[simp] theorem afterDeliver_cfg : (s.afterDeliver v).cfg = s.cfg := rfl
@[simp] theorem afterDeliver_depth : (s.afterDeliver v).depth = s.depth - 1 := rfl
@[simp] theorem afterDeliver_status : (s.afterDeliver v).status = s.status := rfl
@[simp] theorem afterDeliver_result : (s.afterDeliver v).result = s.result := rfl
@[simp] theorem afterDeliver_fault : (s.afterDeliver v).fault = s.fault := rfl
@[simp] theorem afterDeliver_debugTrace : (s.afterDeliver v).debugTrace = s.debugTrace := rfl
@[simp] theorem afterDeliver_inputs : (s.afterDeliver v).inputs = s.inputs := rfl

/-- The records after a delivery: the caller's program counter has advanced (42_call_return R126). -/
theorem afterDeliver_frameAt :
    (s.afterDeliver v).frameAt k =
      if k = s.depth - 1 - 1 then { s.frameAt (s.depth - 1 - 1) with pc := (s.frameAt (s.depth - 1 - 1)).pc + 1 }
      else s.frameAt k :=
  setFrame_frameAt _ _ k _

/-- The slots after a delivery: the caller-target register holds the result (42_call_return R126). -/
theorem afterDeliver_slot :
    (s.afterDeliver v).slot k =
      if k = s.slotOf (s.depth - 1 - 1) s.current.ret then v else s.slot k :=
  storeRead_write Value.nil s.arena _ k v

end

section
variable (s : State) (es : List HostEvent) (im : Image) (l k : Nat)

@[simp] theorem setInputs_cfg : (s.setInputs es).cfg = s.cfg := rfl
@[simp] theorem setInputs_arena : (s.setInputs es).arena = s.arena := rfl
@[simp] theorem setInputs_frames : (s.setInputs es).frames = s.frames := rfl
@[simp] theorem setInputs_depth : (s.setInputs es).depth = s.depth := rfl
@[simp] theorem setInputs_status : (s.setInputs es).status = s.status := rfl
@[simp] theorem setInputs_result : (s.setInputs es).result = s.result := rfl
@[simp] theorem setInputs_fault : (s.setInputs es).fault = s.fault := rfl
@[simp] theorem setInputs_debugTrace : (s.setInputs es).debugTrace = s.debugTrace := rfl
@[simp] theorem setInputs_inputs : (s.setInputs es).inputs = es := rfl
@[simp] theorem setInputs_frameAt : (s.setInputs es).frameAt l = s.frameAt l := rfl
@[simp] theorem setInputs_slot : (s.setInputs es).slot k = s.slot k := rfl
@[simp] theorem setInputs_same : s.setInputs s.inputs = s := rfl

@[simp] theorem setImage_arena : (s.setImage im).arena = s.arena := rfl
@[simp] theorem setImage_frames : (s.setImage im).frames = s.frames := rfl
@[simp] theorem setImage_depth : (s.setImage im).depth = s.depth := rfl
@[simp] theorem setImage_status : (s.setImage im).status = s.status := rfl
@[simp] theorem setImage_result : (s.setImage im).result = s.result := rfl
@[simp] theorem setImage_fault : (s.setImage im).fault = s.fault := rfl
@[simp] theorem setImage_debugTrace : (s.setImage im).debugTrace = s.debugTrace := rfl
@[simp] theorem setImage_inputs : (s.setImage im).inputs = s.inputs := rfl
@[simp] theorem setImage_image : (s.setImage im).cfg.image = im := rfl
@[simp] theorem setImage_opcodes : (s.setImage im).cfg.opcodes = s.cfg.opcodes := rfl
@[simp] theorem setImage_hackPrintPresent :
    (s.setImage im).cfg.hackPrintPresent = s.cfg.hackPrintPresent := rfl

end

/-- The two arrays keep their canonical form through every shared operation. -/
theorem fillNil_wf {a : List (Nat × Value)} (b n : Nat) (h : StoreWf Value.nil a) :
    StoreWf Value.nil (fillNil b n a) := by
  induction n with
  | zero => exact h
  | succ n ih => exact storeWrite_wf _ _ _ ih

theorem initWindow_wf {a : List (Nat × Value)} (b n : Nat) (v : Value) (h : StoreWf Value.nil a) :
    StoreWf Value.nil (initWindow b n v a) := by
  unfold initWindow
  split
  · exact h
  · exact storeWrite_wf _ _ _ (fillNil_wf _ _ h)

theorem setSlot_arena_wf {s : State} (k : Nat) (v : Value) (h : StoreWf Value.nil s.arena) :
    StoreWf Value.nil (s.setSlot k v).arena := storeWrite_wf _ _ _ h

theorem setFrame_frames_wf {s : State} (l : Nat) (f : Frame) (h : StoreWf Frame.blank s.frames) :
    StoreWf Frame.blank (s.setFrame l f).frames := storeWrite_wf _ _ _ h

theorem pushFrame_arena_wf {s : State} (m : MethodIdx) (r : RegIdx) (v : Value) (h : StoreWf Value.nil s.arena) :
    StoreWf Value.nil (s.pushFrame m r v).arena := initWindow_wf _ _ _ h

theorem pushFrame_frames_wf {s : State} (m : MethodIdx) (r : RegIdx) (v : Value)
    (h : StoreWf Frame.blank s.frames) : StoreWf Frame.blank (s.pushFrame m r v).frames := storeWrite_wf _ _ _ h

theorem reset_stores_wf : StoreWf Value.nil State.reset.arena ∧ StoreWf Frame.blank State.reset.frames := by
  constructor <;> constructor <;> simp [State.reset]

end Sys2Proof.Machine
end

