-- ==== Sys2Proof/Laws/Ops.lean ====
section
/-!
SUPPORT. What each shared operation and each meaning can do, said once: when the current frame is ready its body runs, and
a meaning that answers a next state has either entered a fault or completed.
-/

namespace Sys2Proof.Machine

theorem frameProblem_none {s : State} {l : Nat} :
    s.frameProblem l = none ↔ FrameReady s l (s.regsAt l) := by
  simp only [State.frameProblem, methodOutOfBounds, FrameReady]
  by_cases hm : (s.frameAt l).method.toNat < methodCount s.cfg <;>
    by_cases hw : (s.frameAt l).wbase + s.regsAt l ≤ arenaSlots s.cfg <;> simp [hm, hw]

/-- In a ready frame the body runs. -/
theorem inCurrentFrame_of_ready {s : State} {n : Nat} (h : CurrentReady s n) (k : Result) :
    inCurrentFrame s k = k := by
  obtain ⟨hd, hr⟩ := h
  have hp : s.frameProblem s.top = none := by
    rw [frameProblem_none]
    obtain ⟨h1, h2, h3⟩ := hr
    exact ⟨h1, rfl, by rw [State.top, h2]; exact h3⟩
  simp [inCurrentFrame, hp, Nat.ne_of_gt hd]

/-- A body that answered a next state ran in a ready frame. -/
theorem inCurrentFrame_next {s t : State} {k : Result} (h : inCurrentFrame s k = .next t) :
    CurrentReady s (s.regsAt s.top) ∧ k = .next t := by
  unfold inCurrentFrame at h
  split at h
  · cases h
  · rename_i hd
    split at h
    · cases h
    · rename_i hp
      exact ⟨⟨Nat.pos_of_ne_zero hd, frameProblem_none.1 hp⟩, h⟩

theorem regOutOfBounds_eq_true {n : Nat} {i : RegIdx} : regOutOfBounds n i = true ↔ n ≤ i.toNat := by
  simp [regOutOfBounds]

theorem regOutOfBounds_eq_false {n : Nat} {i : RegIdx} : regOutOfBounds n i = false ↔ i.toNat < n := by
  simp [regOutOfBounds]

theorem regOutside_eq_true {s : State} {i : RegIdx} :
    s.regOutside i = true ↔ s.regsAt s.top ≤ i.toNat := regOutOfBounds_eq_true

theorem regOutside_eq_false {s : State} {i : RegIdx} :
    s.regOutside i = false ↔ i.toNat < s.regsAt s.top := regOutOfBounds_eq_false

theorem methodOutOfBounds_eq_false {c : Config} {m : MethodIdx} :
    methodOutOfBounds c m = false ↔ m.toNat < methodCount c := by
  simp [methodOutOfBounds]

theorem methodOutOfBounds_eq_true {c : Config} {m : MethodIdx} :
    methodOutOfBounds c m = true ↔ methodCount c ≤ m.toNat := by
  simp [methodOutOfBounds]

theorem stackFull_eq_true {c : Config} {d : Nat} : stackFull c d = true ↔ c.image.maxDepth ≤ d := by
  simp [stackFull]

theorem stackFull_eq_false {c : Config} {d : Nat} : stackFull c d = false ↔ d < c.image.maxDepth := by
  simp [stackFull]

/-- A code object exists exactly below MethodCount (20_memory R44). -/
theorem codeObject_isSome {c : Config} {m : MethodIdx} :
    (codeObject c m).isSome ↔ m.toNat < methodCount c := by
  simp [codeObject, methodCount]

/-- A pool entry exists exactly below PoolLen (20_memory R44). -/
theorem poolEntry_isSome {c : Config} {m : MethodIdx} {k : PoolIdx} :
    (poolEntry c m k).isSome ↔ k.toNat < poolLen c m := by
  simp [poolEntry, poolLen]

/-- A code word exists exactly below CodeLen (20_memory R44). -/
theorem codeWord_isSome {c : Config} {m : MethodIdx} {pc : Pc} :
    (codeWord c m pc).isSome ↔ pc.toNat < codeLen c m := by
  unfold codeWord codeLen
  split <;> simp

/-- The register counts of a configuration of this hardware (00_scope R2). -/
theorem regCount_le {c : Config} (h : c.Wf) (m : MethodIdx) : regCount c m ≤ 256 := by
  unfold regCount
  split
  · rename_i o ho
    exact (h.2.2.2.1 o (List.mem_of_getElem? ho)).2.1
  · exact Nat.zero_le _

/-- The code lengths of a configuration of this hardware (00_scope R2). -/
theorem codeLen_le {c : Config} (h : c.Wf) (m : MethodIdx) : codeLen c m ≤ 2 ^ 32 - 1 := by
  unfold codeLen
  split
  · rename_i o ho
    exact (h.2.2.2.1 o (List.mem_of_getElem? ho)).1
  · exact Nat.zero_le _

/-- What completing means, instruction by instruction (40_dispatch R95). -/
def Completes (s t : State) : Instr → Prop
  | .move src dst =>
    src.toNat < s.regsAt s.top ∧ dst.toNat < s.regsAt s.top ∧ t = (s.writeReg dst (s.readReg src)).advance
  | .literal index dest =>
    dest.toNat < s.regsAt s.top ∧ ∃ v, s.poolOperand index = some v ∧ t = (s.writeReg dest v).advance
  | .call arg method result =>
    arg.toNat < s.regsAt s.top ∧ result.toNat < s.regsAt s.top ∧ method.toNat < methodCount s.cfg ∧
    s.depth < s.cfg.image.maxDepth ∧ s.newBase + regCount s.cfg method ≤ arenaSlots s.cfg ∧
    t = s.pushFrame method result (s.readReg arg)
  | .ret result =>
    result.toNat < s.regsAt s.top ∧
    ((s.depth = 1 ∧ t = s.halt (s.readReg result)) ∨
     (s.depth ≠ 1 ∧ FrameReady s (s.depth - 2) (s.regsAt (s.depth - 2)) ∧
      s.current.ret.toNat < s.regsAt (s.depth - 2) ∧ t = s.afterDeliver (s.readReg result)))
  | .hackPrint reg =>
    reg.toNat < s.regsAt s.top ∧ t = (s.emitDebug (s.readReg reg)).advance

theorem deliver_next {s t : State} {v : Value} (h : s.deliver v = .next t) :
    FrameReady s (s.depth - 2) (s.regsAt (s.depth - 2)) ∧ s.current.ret.toNat < s.regsAt (s.depth - 2) ∧
    t = s.afterDeliver v := by
  unfold State.deliver at h
  split at h
  · cases h
  · rename_i hp
    split at h
    · cases h
    · rename_i hr
      cases h
      exact ⟨frameProblem_none.1 hp, regOutOfBounds_eq_false.1 (by simpa using hr), rfl⟩

/-- Everything an executed instruction can do when it answers a next state: enter one fault, or complete. -/
theorem exec_next {i : Instr} {s t : State} (h : exec i s = .next t) :
    CurrentReady s (s.regsAt s.top) ∧
    ((∃ c, c ∈ executeCauses i ∧ t = s.enterFault c) ∨ Completes s t i) := by
  cases i with
  | move src dst =>
    obtain ⟨hr, hk⟩ := inCurrentFrame_next h
    refine ⟨hr, ?_⟩
    split at hk
    · cases hk
      exact .inl ⟨.registerOutOfBounds, by simp [executeCauses], rfl⟩
    · rename_i ho
      simp only [Bool.or_eq_true, not_or, Bool.not_eq_true, regOutside_eq_false] at ho
      cases hk
      exact .inr ⟨ho.1, ho.2, rfl⟩
  | literal index dest =>
    obtain ⟨hr, hk⟩ := inCurrentFrame_next h
    refine ⟨hr, ?_⟩
    split at hk
    · cases hk
      exact .inl ⟨.registerOutOfBounds, by simp [executeCauses], rfl⟩
    · rename_i ho
      simp only [Bool.not_eq_true, regOutside_eq_false] at ho
      split at hk
      · cases hk
        exact .inl ⟨.constantIndexOutOfBounds, by simp [executeCauses], rfl⟩
      · rename_i v hv
        cases hk
        exact .inr ⟨ho, v, hv, rfl⟩
  | call arg method result =>
    obtain ⟨hr, hk⟩ := inCurrentFrame_next h
    refine ⟨hr, ?_⟩
    split at hk
    · cases hk
      exact .inl ⟨.registerOutOfBounds, by simp [executeCauses], rfl⟩
    · rename_i ho
      simp only [Bool.or_eq_true, not_or, Bool.not_eq_true, regOutside_eq_false] at ho
      split at hk
      · cases hk
        exact .inl ⟨.methodIndexOutOfBounds, by simp [executeCauses], rfl⟩
      · rename_i hm
        simp only [Bool.not_eq_true, methodOutOfBounds_eq_false] at hm
        split at hk
        · cases hk
          exact .inl ⟨.stackOverflow, by simp [executeCauses], rfl⟩
        · rename_i hf
          simp only [Bool.not_eq_true, stackFull_eq_false] at hf
          unfold State.callFrame at hk
          split at hk
          · rename_i hw
            cases hk
            exact .inr ⟨ho.1, ho.2, hm, hf, hw, rfl⟩
          · cases hk
  | ret result =>
    obtain ⟨hr, hk⟩ := inCurrentFrame_next h
    refine ⟨hr, ?_⟩
    split at hk
    · cases hk
      exact .inl ⟨.registerOutOfBounds, by simp [executeCauses], rfl⟩
    · rename_i ho
      simp only [Bool.not_eq_true, regOutside_eq_false] at ho
      split at hk
      · rename_i h1
        cases hk
        exact .inr ⟨ho, .inl ⟨by simpa [isRoot] using h1, rfl⟩⟩
      · rename_i h1
        exact .inr ⟨ho, .inr ⟨by simpa [isRoot] using h1, deliver_next hk⟩⟩
  | hackPrint reg =>
    obtain ⟨hr, hk⟩ := inCurrentFrame_next h
    refine ⟨hr, ?_⟩
    split at hk
    · cases hk
      exact .inl ⟨.registerOutOfBounds, by simp [executeCauses], rfl⟩
    · rename_i ho
      simp only [Bool.not_eq_true, regOutside_eq_false] at ho
      cases hk
      exact .inr ⟨ho, rfl⟩

end Sys2Proof.Machine
end

