-- ==== Sys2Proof/Laws/Step.lean ====
section
/-!
SUPPORT. What a step can do, said once: the host's events, the idle step, and the engine's step.
-/

namespace Sys2Proof.Machine

/-- Fetch and decode where a word stands at the program counter (40_dispatch R91, R93). -/
theorem fetch_of_word {s : State} {w : Word} (hd : 0 < s.depth) (hm : s.current.method.toNat < methodCount s.cfg)
    (hw : codeWord s.cfg s.current.method s.current.pc = some w) : fetch s = decodeFetched s.cfg w := by
  unfold fetch
  rw [if_neg (Nat.ne_of_gt hd), if_neg (by simpa [methodOutOfBounds] using hm), hw]

/-- What the engine's step can do when it answers a next state (40_dispatch R96). -/
theorem engineStep_next {s t : State} (h : engineStep s = .next t) :
    0 < s.depth ∧ s.current.method.toNat < methodCount s.cfg ∧
    ((codeWord s.cfg s.current.method s.current.pc = none ∧ t = s.enterFault .pcOutOfBounds) ∨
     ∃ w, codeWord s.cfg s.current.method s.current.pc = some w ∧
       ((∃ op, decode s.cfg w = .invalid op ∧ t = s.enterFault .invalidOpcode) ∨
        ∃ i, decode s.cfg w = .instr i ∧ exec i s = .next t)) := by
  unfold engineStep at h
  unfold fetch at h
  by_cases hd : s.depth = 0
  · simp [hd] at h
  · by_cases hm : methodOutOfBounds s.cfg s.current.method = true
    · simp [hd, hm] at h
    · refine ⟨Nat.pos_of_ne_zero hd, methodOutOfBounds_eq_false.1 (by simpa using hm), ?_⟩
      simp only [hd, hm, if_false, Bool.false_eq_true] at h
      cases hw : codeWord s.cfg s.current.method s.current.pc with
      | none =>
        simp only [hw] at h
        cases h
        exact .inl ⟨rfl, rfl⟩
      | some w =>
        refine .inr ⟨w, rfl, ?_⟩
        simp only [hw, decodeFetched] at h
        cases hdec : decode s.cfg w with
        | instr i =>
          simp only [hdec] at h
          exact .inr ⟨i, rfl, h⟩
        | invalid op =>
          simp only [hdec] at h
          cases h
          exact .inl ⟨op, rfl, rfl⟩

/-- A load that answers a next state (50_host_interface R157). -/
theorem loadImage_next {s t : State} {im : Image} (h : s.loadImage im = .next t) :
    s.status ≠ .running ∧ im.Wf ∧ t = s.setImage im := by
  unfold State.loadImage at h
  split at h
  · cases h
  · rename_i hr
    split at h
    · rename_i hw
      cases h
      exact ⟨hr, hw, rfl⟩
    · cases h

/-- At a boundary with no host event the engine steps if it is Running, and nothing changes otherwise (40_dispatch R97). -/
theorem step_quiet {s : State} (hc : s.cfg.Wf) (hq : hostQuiet s = true) :
    step s = if s.status = .running then engineStep (s.setInputs s.inputs.tail)
      else .next (s.setInputs s.inputs.tail) := by
  have key : step s =
      (match engineTurn (s.setInputs s.inputs.tail) with
        | .host o => o
        | .idle s' => .next s'
        | .engine s' => engineStep s') := by
    unfold step turn
    rw [if_pos hc]
    cases hin : s.inputs with
    | nil =>
      have e : s.setInputs [].tail = s := by rw [List.tail_nil, ← hin, setInputs_same]
      exact (congrArg (fun u => match engineTurn u with
        | .host o => o
        | .idle s' => .next s'
        | .engine s' => engineStep s') e).symm
    | cons e rest =>
      cases e <;> first | rfl | simp [hostQuiet, hin] at hq
  rw [key]
  unfold engineTurn
  by_cases hr : s.status = .running <;> simp [hr]

/-- What a step can do when it answers a next state: a host event, nothing, or the engine's step, the head of the host's
events being used up. -/
theorem step_next {s t : State} (h : step s = .next t) :
    s.cfg.Wf ∧
    ((∃ rest, s.inputs = .reset :: rest ∧ t = (s.setInputs rest).resetInstance) ∨
     (∃ e a rest, s.inputs = .start e a :: rest ∧ t = (s.setInputs rest).startRequest e a) ∨
     (∃ im rest, s.inputs = .load im :: rest ∧ s.status ≠ .running ∧ im.Wf ∧
        t = (s.setInputs rest).setImage im) ∨
     (hostQuiet s = true ∧ s.status ≠ .running ∧ t = s.setInputs s.inputs.tail) ∨
     (hostQuiet s = true ∧ s.status = .running ∧ engineStep (s.setInputs s.inputs.tail) = .next t)) := by
  by_cases hc : s.cfg.Wf
  · refine ⟨hc, ?_⟩
    by_cases hq : hostQuiet s = true
    · rw [step_quiet hc hq] at h
      split at h
      · rename_i hr
        exact .inr (.inr (.inr (.inr ⟨hq, hr, h⟩)))
      · rename_i hr
        cases h
        exact .inr (.inr (.inr (.inl ⟨hq, hr, rfl⟩)))
    · unfold step turn at h
      rw [if_pos hc] at h
      cases hin : s.inputs with
      | nil => simp [hostQuiet, hin] at hq
      | cons e rest =>
        simp only [hin] at h
        cases e with
        | quiet => simp [hostQuiet, hin] at hq
        | reset =>
          cases h
          exact .inl ⟨rest, rfl, rfl⟩
        | start e a =>
          cases h
          exact .inr (.inl ⟨e, a, rest, rfl, rfl⟩)
        | load im =>
          obtain ⟨hr, hw, ht⟩ := loadImage_next (s := s.setInputs rest) (im := im) h
          exact .inr (.inr (.inl ⟨im, rest, rfl, hr, hw, ht⟩))
  · unfold step turn at h
    rw [if_neg hc] at h
    cases h

end Sys2Proof.Machine
end

