-- ==== Sys2Proof/Laws/Invariants.lean ====
section
/-!
SUPPORT. What the stack invariant gives: where windows lie, and that every frame on the stack is a frame of this machine.
-/

namespace Sys2Proof.Machine

/-- A window starts no higher than 256 slots a level (10_state R15). -/
theorem wbase_le {s : State} (hc : s.cfg.Wf) (h : StackInv s) : ∀ l, l < s.depth → (s.frameAt l).wbase ≤ 256 * l := by
  intro l
  induction l with
  | zero =>
    intro hl
    have := h.2.2.2.2.2.1 hl
    omega
  | succ l ih =>
    intro hl
    have h1 := h.2.2.2.2.2.2 l (by omega)
    have h2 := ih (by omega)
    have h3 : s.regsAt l ≤ 256 := regCount_le hc _
    omega

/-- A window ends inside the arena (10_state R15). -/
theorem window_le {s : State} (hc : s.cfg.Wf) (h : StackInv s) {l : Nat} (hl : l < s.depth) :
    (s.frameAt l).wbase + s.regsAt l ≤ 256 * (l + 1) ∧ 256 * (l + 1) ≤ arenaSlots s.cfg := by
  have h1 := wbase_le hc h l hl
  have h2 : s.regsAt l ≤ 256 := regCount_le hc _
  have h3 := h.1
  unfold arenaSlots
  omega

/-- Lower windows end where or before higher ones begin (10_state R16). -/
theorem window_before {s : State} (h : StackInv s) {l l' : Nat} (hll : l < l') (hl : l' < s.depth) :
    (s.frameAt l).wbase + s.regsAt l ≤ (s.frameAt l').wbase := by
  induction l' with
  | zero => omega
  | succ l' ih =>
    have h1 := h.2.2.2.2.2.2 l' (by omega)
    rcases Nat.lt_or_eq_of_le (Nat.le_of_lt_succ hll) with hlt | heq
    · have := ih hlt (by omega)
      omega
    · subst heq
      omega

/-- Every frame on the stack is ready (10_state R33). -/
theorem frameReady_of_stackInv {s : State} (hc : s.cfg.Wf) (h : StackInv s) {l : Nat} (hl : l < s.depth) :
    FrameReady s l (s.regsAt l) :=
  ⟨h.2.1 l hl, rfl, (window_le hc h hl).1.trans (window_le hc h hl).2⟩

/-- The current frame is ready (10_state R33). -/
theorem currentReady_of_stackInv {s : State} (hc : s.cfg.Wf) (h : StackInv s) (hd : 0 < s.depth) :
    CurrentReady s (s.regsAt s.top) :=
  ⟨hd, frameReady_of_stackInv hc h (by omega)⟩

/-- The window of a frame that CALL may push lies inside the arena (10_state R15, 42_call_return R122). -/
theorem newWindow_le {s : State} (hc : s.cfg.Wf) (h : StackInv s) (hd : s.depth < s.cfg.image.maxDepth)
    (m : MethodIdx) : s.newBase + regCount s.cfg m ≤ arenaSlots s.cfg := by
  have hm := regCount_le hc m
  unfold State.newBase arenaSlots
  split
  · omega
  · rename_i h0
    have h1 := wbase_le hc h (s.depth - 1) (by omega)
    have h2 : s.regsAt s.top ≤ 256 := regCount_le hc _
    have h3 : s.current.wbase ≤ 256 * (s.depth - 1) := h1
    omega

end Sys2Proof.Machine
end

