-- ==== Sys2Proof/Laws/PerInstr.lean ====
section
/-!
SUPPORT. Statements made per instruction, one lemma per constructor.
-/

/-- The opcode byte of an instruction's canonical word is the number its opcode map gives it (30_encoding R61, R74, R76). -/
def Sys2Proof.Laws.OpcodeByte.Statement (i : Sys2Proof.Instr) : Prop :=
  ∀ m : Sys2Proof.OpcodeMap, Sys2Proof.opcodeByte (Sys2Proof.encode m i) = m.opcodeOf i

theorem Sys2Proof.Laws.OpcodeByte.move (src dst : Sys2Proof.RegIdx) :
    Sys2Proof.Laws.OpcodeByte.Statement (.move src dst) :=
  fun _ => Sys2Proof.opcodeByte_encodeABC ..

theorem Sys2Proof.Laws.OpcodeByte.literal (index : Sys2Proof.PoolIdx) (dest : Sys2Proof.RegIdx) :
    Sys2Proof.Laws.OpcodeByte.Statement (.literal index dest) :=
  fun _ => Sys2Proof.opcodeByte_encodeAxC ..

theorem Sys2Proof.Laws.OpcodeByte.call (arg : Sys2Proof.RegIdx) (method : Sys2Proof.MethodIdx)
    (result : Sys2Proof.RegIdx) : Sys2Proof.Laws.OpcodeByte.Statement (.call arg method result) :=
  fun _ => Sys2Proof.opcodeByte_encodeABC ..

theorem Sys2Proof.Laws.OpcodeByte.ret (result : Sys2Proof.RegIdx) :
    Sys2Proof.Laws.OpcodeByte.Statement (.ret result) :=
  fun _ => Sys2Proof.opcodeByte_encodeABC ..

theorem Sys2Proof.Laws.OpcodeByte.hackPrint (reg : Sys2Proof.RegIdx) :
    Sys2Proof.Laws.OpcodeByte.Statement (.hackPrint reg) :=
  fun _ => Sys2Proof.opcodeByte_encodeABC ..
end

