-- ==== Sys2Proof/Laws/Run.lean ====
section
/-!
SUPPORT. The sum in the bound of 40_dispatch R99.
-/

namespace Sys2Proof.Machine

/-- The sum unfolded at its other end: a frame and the frames under each of its words. -/
theorem powerSum_succ (L d : Nat) : powerSum L (d + 1) = 1 + L * powerSum L d := by
  induction d with
  | zero => simp [powerSum]
  | succ d ih =>
    have h : powerSum L (d + 1) = powerSum L d + L ^ d := rfl
    calc powerSum L (d + 1) + L ^ (d + 1) = 1 + L * (powerSum L d + L ^ d) := by rw [ih, pow_succ]; ring
      _ = 1 + L * powerSum L (d + 1) := by rw [h]

end Sys2Proof.Machine
end

