-- ==== Sys2Proof/Tests/Slice0.lean ====
section
/-!
SUPPORT. Tests with expected results from 95_test_vectors and from the rules by hand, the smoke test of every well-formedness
check, and a witness for the hypotheses of every obligation that has some.
-/

open Sys2Proof Sys2Proof.Machine

namespace Sys2Proof.Tests

/-! ### Small states -/

/-- The next state of an outcome. -/
def nextOf : Result → Option State
  | .next t => some t
  | .fault _ => none
  | .refused _ => none

/-- Program P2 of 95_test_vectors section 9, with a one-entry pool for both code objects and MAX_DEPTH 2. -/
def demoImage : Image :=
  { methodTable :=
      [{ code := [0x00000103, 0x01010204, 0x02000005], regCount := 3, poolId := 0 },
       { code := [0x00010002, 0x01000005], regCount := 2, poolId := 0 }]
    pools := [[intValue 42]]
    maxDepth := 2 }

/-- The default configuration with the demo image loaded. -/
def demoConfig : Config := { Config.default with image := demoImage }

/-- Halted, with the demo image loaded. -/
def idle : State := { State.reset with cfg := demoConfig }

/-- Right after `start(0, Int(7))`: the root frame with three registers. -/
def root : State := idle.startRun 0 (intValue 7)

/-- The root frame about to execute the CALL at index 1. -/
def atCall : State := root.advance

/-- In the callee of that CALL, at index 0, the argument being Int(42). -/
def callee : State := atCall.pushFrame 1 2 (intValue 42)

/-- In the callee at its RETURN, index 1. -/
def atReturn : State := callee.advance

/-- The root frame at its RETURN, index 2. -/
def atRootReturn : State := atCall.advance

/-- The root frame past its last word. -/
def pastEnd : State := atRootReturn.advance

/-- Faulted in the callee. -/
def failed : State := callee.enterFault .registerOutOfBounds

/-- A root frame of no registers (vector M6). -/
def noRegs : State :=
  State.startRun
    { idle with cfg := { demoConfig with image := { demoImage with
        methodTable := [{ code := [0x00000002], regCount := 0, poolId := 0 }] } } } 0 Value.nil

/-- A one-word program, begun by the host. -/
def oneWord (w : Word) (hp : Bool) : State :=
  State.startRun
    { idle with cfg := { demoConfig with hackPrintPresent := hp, image := { demoImage with
        methodTable := [{ code := [w], regCount := 1, poolId := 0 }] } } } 0 (intValue 4)

/-! ### Well-formedness: one term that each check refuses (00_scope R1, R2; 43_debug R141) -/

theorem test_wf_accepts_default : Config.default.Wf ∧ demoConfig.Wf := by decide
theorem test_wf_refuses_equal_opcodes : ¬ OpcodeMap.Wf { OpcodeMap.default with move := 0x03 } := by decide
theorem test_wf_refuses_other_call : ¬ OpcodeMap.Wf { OpcodeMap.default with call := 0x07 } := by decide
theorem test_wf_refuses_depth_zero : ¬ Image.Wf { demoImage with maxDepth := 0 } := by decide
theorem test_wf_refuses_257_methods :
    ¬ Image.Wf { demoImage with methodTable := List.replicate 257 ⟨[], 0, 0⟩ } := by
  intro h
  exact absurd h.2.1 (by rw [List.length_replicate]; decide)
theorem test_wf_refuses_257_registers : ¬ CodeObject.Wf 1 ⟨[], 257, 0⟩ := by decide
theorem test_wf_refuses_absent_pool : ¬ CodeObject.Wf 1 ⟨[], 0, 1⟩ := by decide
theorem test_wf_refuses_long_pool :
    ¬ Image.Wf { demoImage with methodTable := [], pools := [List.replicate 65537 Value.nil] } := by
  intro h
  exact absurd (h.2.2.2 _ (List.mem_singleton_self _)) (by rw [List.length_replicate]; decide)
theorem test_wf_refuses_long_code : ¬ CodeObject.Wf 1 ⟨List.replicate (2 ^ 32) 0, 0, 0⟩ := by
  intro h
  exact absurd h.1 (by rw [List.length_replicate]; decide)
theorem test_wf_refuses_absent_hack_print :
    Instr.wf { Config.default with hackPrintPresent := false } (.hackPrint 0) = false := by decide

/-! ### Decoding: words of 95_test_vectors, by hand from 30_encoding R62, R63, R74 -/

theorem test_decode_move : decode Config.default 0x0002AB02 = .instr (.move 0 2) := by decide
theorem test_decode_literal : decode Config.default 0x01020103 = .instr (.literal 258 1) := by decide
theorem test_decode_call : decode Config.default 0x02070104 = .instr (.call 2 7 1) := by decide
theorem test_decode_return : decode Config.default 0x01CDEF05 = .instr (.ret 1) := by decide
theorem test_decode_hack_print : decode Config.default 0x02000006 = .instr (.hackPrint 2) := by decide
theorem test_decode_above_last : decode Config.default 0x01020307 = .invalid 0x07 := by decide
theorem test_decode_bits :
    decode Config.default 0b00000101000000010000000000000010 = .instr (.move 5 1) ∧
    decode Config.default 0b11111111111111110000000000000011 = .instr (.literal 65535 0) ∧
    decode Config.default 0b11111111111111111111111100000100 = .instr (.call 255 255 255) ∧
    decode Config.default 0b11111111000000000000000000000101 = .instr (.ret 255) ∧
    decode Config.default 0b00000000000000000000000000000110 = .instr (.hackPrint 0) := by decide
theorem test_encode_fields : encodeABC 0x12 0x34 0x56 0x78 = 0x12345678 ∧ encodeAxC 258 1 3 = 0x01020103 := by decide
theorem test_decode_axc : decodeAxC 0x12345678 = ⟨0x1234, 0x56, 0x78⟩ := by decide
theorem test_table_word : decodeTableWord 8 4 = some (.call 0 0 0) ∧ decodeTableWord 32 0x02070104 = some (.call 2 7 1) ∧
    decodeTableWord 8 1 = none := by decide

/-- 95_test_vectors section 2, serialization. -/
theorem test_serialize :
    bytesOfWord .littleEndian 0x02070104 = [0x04, 0x01, 0x07, 0x02] ∧
    bytesOfWord .bigEndian 0x02070104 = [0x02, 0x07, 0x01, 0x04] ∧
    codeOfBytes .littleEndian [0x03, 0x01, 0x02, 0x01] = some [0x01020103] := by decide

/-- 95_test_vectors section 2, encoder refusal and canonical encodings. -/
theorem test_assembler :
    assemble OpcodeMap.default ⟨.move, [.n 256, .n 0]⟩ = none ∧ assemble OpcodeMap.default ⟨.move, [.n 0, .r 256]⟩ = none ∧
    assemble OpcodeMap.default ⟨.literal, [.n 65536, .n 0]⟩ = none ∧
    assemble OpcodeMap.default ⟨.call, [.n 0, .n 256, .n 0]⟩ = none ∧
    assemble OpcodeMap.default ⟨.ret, [.n (-1)]⟩ = none ∧
    assemble OpcodeMap.default ⟨.literal, [.n 7, .r 9]⟩ = some 0x00070903 := by decide

/-- 95_test_vectors, notation: the port words of Values. -/
theorem test_values :
    valueBits (intValue (-1)) = 0x2FFFFFFFFFFFFFFFF ∧ valueBits (textValue 0x10) = 0x40000000000000010 ∧
    valueBits (boolValue true) = 0x10000000000000001 ∧ valueBits (callableValue 3) = 0x50000000000000003 ∧
    valueTag ⟨9, 0xDEADBEEF⟩ = .reserved 9 := by decide

/-! ### Instructions: one step each -/

/-- Vector M1 in the demo root frame: MOVE(r0, r2). -/
theorem test_move :
    (nextOf (exec (.move 0 2) root)).map (fun t => (t.reg 0 2, t.reg 0 0, t.reg 0 1, (t.frameAt 0).pc)) =
      some (intValue 7, intValue 7, Value.nil, 1) := by decide

/-- Vector M4: MOVE(r3, r0) with N = 3. -/
theorem test_move_faults :
    (nextOf (exec (.move 3 0) root)).map (fun t => (t.status, t.fault, t.reg 0 0)) =
      some (.faulted, ⟨some .registerOutOfBounds, 0, 0, 0⟩, intValue 7) := by decide

/-- Vector L1 in the demo root frame: LITERAL(0, r1). -/
theorem test_literal :
    (nextOf (exec (.literal 0 1) root)).map (fun t => (t.reg 0 1, t.reg 0 0, (t.frameAt 0).pc)) =
      some (intValue 42, intValue 7, 1) := by decide

/-- Vector L4: LITERAL(7, r9), both conditions hold. -/
theorem test_literal_priority :
    (nextOf (exec (.literal 7 9) root)).map (fun t => t.fault.cause) = some (some .registerOutOfBounds) ∧
    (nextOf (exec (.literal 1 0) root)).map (fun t => t.fault.cause) = some (some .constantIndexOutOfBounds) := by decide

/-- Program P2, step 2: CALL(r1, 1, r2) with r1 = Nil here. -/
theorem test_call :
    (nextOf (step atCall)).map (fun t => (t.depth, t.frameAt 1, (t.frameAt 0).pc, t.reg 1 0)) =
      some (2, ⟨1, 0, 2, 3⟩, 1, Value.nil) := by decide

/-- Vectors CA3, CA4 and Scenario E: the priority of CALL's faults. -/
theorem test_call_priority :
    (nextOf (exec (.call 5 9 0) callee)).map (fun t => t.fault.cause) = some (some .registerOutOfBounds) ∧
    (nextOf (exec (.call 0 9 0) callee)).map (fun t => t.fault.cause) = some (some .methodIndexOutOfBounds) ∧
    (nextOf (exec (.call 0 0 0) callee)).map (fun t => (t.fault, t.depth)) =
      some (⟨some .stackOverflow, 1, 1, 0⟩, 2) := by decide

/-- Program P2, step 4: RETURN(r1) in the callee delivers to the caller's r2. -/
theorem test_return :
    (nextOf (exec (.ret 0) atReturn)).map (fun t => (t.depth, t.reg 0 2, t.reg 0 0, (t.frameAt 0).pc, t.status)) =
      some (1, intValue 42, intValue 7, 2, .running) := by decide

/-- Scenario A's last step: RETURN in the root frame halts. -/
theorem test_return_root :
    (nextOf (exec (.ret 0) atRootReturn)).map (fun t => (t.depth, t.result, t.status)) =
      some (0, intValue 7, .halted) := by decide

/-- Vector H1, first step. -/
theorem test_hack_print :
    (nextOf (step (oneWord 0x00000006 true))).map (fun t => (t.debugTrace, (t.frameAt 0).pc)) =
      some ([intValue 4], 1) := by decide

/-- Vector H3: without HACK_PRINT the opcode is invalid. -/
theorem test_hack_print_absent :
    (nextOf (step (oneWord 0x00000006 false))).map (fun t => (t.debugTrace, t.fault.cause)) =
      some ([], some .invalidOpcode) := by decide

/-- Vector S3: a start request from Faulted begins a fresh run. -/
theorem test_restart :
    (nextOf (step { failed with inputs := [.start 0 (intValue 2)] })).map
      (fun t => (t.depth, t.status, t.fault.cause, t.reg 0 0, t.frameAt 0)) =
      some (1, .running, none, intValue 2, ⟨0, 0, 0, 0⟩) := by decide

/-- A placed word runs as the first instruction after reset. -/
theorem test_with_fetch_word :
    (nextOf (step (State.reset.withFetchWord 8 0x02))).map (fun t => (t.status, (t.frameAt 0).pc)) = some (.running, 1) ∧
    (nextOf (step (State.reset.withFetchWord 8 0x05))).map (fun t => (t.status, t.depth)) = some (.halted, 0) := by decide

theorem witness_DecodeOfEncode :
    Config.default.opcodes.Wf ∧ Instr.wf Config.default (.hackPrint 255) = true ∧
    decode Config.default 0x0002AB02 = decode Config.default 0x00020002 := by decide

theorem witness_DecoderFollowsOpcodeByte :
    Config.default.opcodes.Wf ∧ opcodeByte 0xFFFFFF02 = 0x02 ∧ opcodeByte 0xFFFFFF03 = 0x03 ∧
    opcodeByte 0xFFFFFF04 = 0x04 ∧ opcodeByte 0xFFFFFF05 = 0x05 ∧ opcodeByte 0xFFFFFF06 = 0x06 ∧
    (oneWord 0 true).cfg.hackPrintPresent = true ∧ (oneWord 0 false).cfg.hackPrintPresent = false ∧
    opcodeByte 0x01020307 ∉ Config.default.opcodes.numbers := by decide

theorem witness_InvalidOpcodeBytes : Config.default.opcodes = OpcodeMap.default := rfl

/-- The last register and index in both spellings; one number too large, a negative one, a register for an index, one
operand too few. -/
theorem witness_AssemblerAcceptsExactlyWhatFits :
    lineFits ⟨.call, [.r 255, .n 255, .n 0]⟩ = true ∧ WritesInstr ⟨.move, [.r 255, .n 0]⟩ (.move 255 0) ∧
    lineFits ⟨.move, [.r 256, .n 0]⟩ = false ∧ lineFits ⟨.literal, [.n 65536, .n 0]⟩ = false ∧
    lineFits ⟨.ret, [.n (-1)]⟩ = false ∧ lineFits ⟨.literal, [.r 0, .n 0]⟩ = false ∧ lineFits ⟨.call, [.n 0, .n 0]⟩ = false ∧
    asmNumber 8 255 = some 255#8 ∧ asmNumber 8 256 = none :=
  ⟨by decide, ⟨rfl, _, _, rfl, .inl rfl, .inr rfl⟩, by decide, by decide, by decide, by decide, by decide, by decide,
    by decide⟩

/-- Completing at the last register, trapping at the first index out of bounds. -/
theorem witness_MoveFollowsItsRule :
    OpcodeMap.default.Wf ∧ CurrentReady root 3 ∧ (2#8).toNat < 3 ∧ ¬ (3#8).toNat < 3 := by decide

theorem witness_MoveTwiceIsMoveOnce : CurrentReady root 3 ∧ (2#8).toNat < 3 := by decide

theorem witness_LiteralFollowsItsRule :
    CurrentReady root 3 ∧ 3 ≤ (3#8).toNat ∧ ¬ 3 ≤ (2#8).toNat ∧
    poolLen root.cfg (root.frameAt 0).method ≤ (1#16).toNat ∧
    ¬ poolLen root.cfg (root.frameAt 0).method ≤ (0#16).toNat := by decide

theorem witness_LiteralThenMove :
    CurrentReady root 3 ∧ (2#8).toNat < 3 ∧ (0#16).toNat < poolLen root.cfg (root.frameAt (root.depth - 1)).method := by
  decide

/-- `atCall` completes a CALL, which brings the depth to MAX_DEPTH; `callee` is full. -/
theorem witness_CallFollowsItsRule :
    (atCall.cfg.Wf ∧ StackInv atCall ∧ 0 < atCall.depth) ∧
    (callee.cfg.Wf ∧ StackInv callee ∧ 0 < callee.depth) ∧
    (3#8).toNat = atCall.regsAt (atCall.depth - 1) ∧ (2#8).toNat + 1 = atCall.regsAt (atCall.depth - 1) ∧
    (2#8).toNat = methodCount atCall.cfg ∧ (1#8).toNat + 1 = methodCount atCall.cfg ∧
    atCall.depth ≠ atCall.cfg.image.maxDepth ∧ callee.depth = callee.cfg.image.maxDepth ∧
    0 < regCount atCall.cfg 1 ∧ (1#8).toNat < regCount atCall.cfg 1 := by decide

/-- The frame with a caller and the root frame, the last register and the first index out of bounds. -/
theorem witness_ReturnFollowsItsRule :
    (atReturn.cfg.Wf ∧ StackInv atReturn ∧ 0 < atReturn.depth ∧ atReturn.depth ≠ 1) ∧
    atReturn.regsAt (atReturn.depth - 1) ≤ (2#8).toNat ∧ ¬ atReturn.regsAt (atReturn.depth - 1) ≤ (1#8).toNat ∧
    (atRootReturn.cfg.Wf ∧ StackInv atRootReturn ∧ atRootReturn.depth = 1) ∧
    ¬ atRootReturn.regsAt (atRootReturn.depth - 1) ≤ (2#8).toNat := by decide

/-- A window is pushed on an empty stack and on another frame; both have a register 0 and one more. -/
theorem witness_FrameCreation :
    idle.depth = 0 ∧ atCall.depth ≠ 0 ∧ 1 ≤ regCount atCall.cfg 1 ∧ 1 < regCount atCall.cfg 1 := by decide

theorem witness_HackPrintGating :
    let s := oneWord 0x00000006 false
    RunInv s ∧ s.status = .running ∧ s.cfg.hackPrintPresent = false ∧
    codeWord s.cfg (s.frameAt (s.depth - 1)).method (s.frameAt (s.depth - 1)).pc = some 0x00000006 ∧
    opcodeByte 0x00000006 = s.cfg.opcodes.hackPrint ∧ (nextOf (step s)).isSome = true ∧
    (oneWord 0 true).cfg.hackPrintPresent = true :=
  ⟨by decide, by decide, by decide, by decide, by decide, by decide, by decide⟩

theorem witness_OnlyLiteralReadsPools :
    (∀ k d, Instr.call 1 1 2 ≠ .literal k d) ∧
    nextOf (exec (.literal 0 1) (withPools [[]] root)) ≠ (nextOf (exec (.literal 0 1) root)).map (withPools [[]]) :=
  ⟨nofun, by decide⟩

theorem witness_ReturnFromRootHalts : CurrentReady atRootReturn 3 ∧ atRootReturn.depth = 1 ∧ (2#8).toNat < 3 := by decide

theorem witness_HackPrintFollowsItsRule :
    Config.default.opcodes.Wf ∧ Config.default.hackPrintPresent = true ∧ CurrentReady root 3 ∧
    3 ≤ (3#8).toNat ∧ ¬ 3 ≤ (2#8).toNat := by decide

/-- One instruction of each kind, and a frame of no registers. -/
theorem witness_RegisterOperandOutOfBounds :
    CurrentReady root 3 ∧ CurrentReady noRegs 0 ∧
    (∃ r ∈ registerOperands (.move 0 3), 3 ≤ r.toNat) ∧ (∃ r ∈ registerOperands (.literal 0 3), 3 ≤ r.toNat) ∧
    (∃ r ∈ registerOperands (.call 0 0 3), 3 ≤ r.toNat) ∧ (∃ r ∈ registerOperands (.ret 3), 3 ≤ r.toNat) ∧
    (∃ r ∈ registerOperands (.hackPrint 0), 0 ≤ r.toNat) := by decide

theorem witness_FaultsArePreciseAndListed :
    root.status ≠ .faulted ∧ ∃ t, exec (.move 3 0) root = .next t ∧ t.status = .faulted :=
  ⟨by decide, _, rfl, rfl⟩

theorem witness_StepRunsDecodedInstruction :
    root.cfg.Wf ∧ hostQuiet root = true ∧ root.status = .running ∧ 0 < root.depth ∧
    (root.frameAt (root.depth - 1)).method.toNat < methodCount root.cfg ∧
    codeWord root.cfg (root.frameAt (root.depth - 1)).method (root.frameAt (root.depth - 1)).pc = some 0x00000103 ∧
    decode root.cfg 0x00000103 = .instr (.literal 0 1) := by decide

theorem witness_InvalidOpcodeFaults :
    let s := oneWord 0xFFFFFFFF true
    s.cfg.opcodes.Wf ∧ 0 < s.depth ∧ (s.frameAt (s.depth - 1)).method.toNat < methodCount s.cfg ∧
    codeWord s.cfg (s.frameAt (s.depth - 1)).method (s.frameAt (s.depth - 1)).pc = some 0xFFFFFFFF ∧
    decode s.cfg 0xFFFFFFFF = .invalid 0xFF := by decide

theorem witness_FaultEntryIsAllThatHappens :
    pastEnd.status = .running ∧ ∃ t, engineStep pastEnd = .next t ∧ t.status = .faulted := ⟨by decide, _, rfl, rfl⟩

/-- A completing step, and a fault of each position of 60_exceptions R179. -/
theorem witness_FaultPriority :
    (RunInv root ∧ root.status = .running ∧ executeFault root (.literal 0 1) = none) ∧
    (RunInv pastEnd ∧ pastEnd.status = .running ∧ stepFault pastEnd = some .pcOutOfBounds) ∧
    stepFault (oneWord 0xFFFFFFFF true) = some .invalidOpcode ∧
    executeFault root (.call 3 2 0) = some .registerOutOfBounds ∧
    executeFault root (.literal 1 2) = some .constantIndexOutOfBounds ∧
    executeFault callee (.call 0 2 0) = some .methodIndexOutOfBounds ∧
    executeFault callee (.call 0 1 0) = some .stackOverflow :=
  ⟨⟨by decide, by decide, by decide⟩, ⟨by decide, by decide, by decide⟩,
    by decide, by decide, by decide, by decide, by decide⟩

theorem witness_NextStateTable :
    RunInv callee ∧ callee.status = .running ∧ executeFault callee (.move 0 1) = none ∧ executing callee = some (.move 0 1) ∧
    executing atCall = some (.call 1 1 2) ∧ executing atRootReturn = some (.ret 2) :=
  ⟨by decide, by decide, by decide, by decide, by decide, by decide⟩

theorem witness_FetchPastEndFaults :
    0 < pastEnd.depth ∧ (pastEnd.frameAt (pastEnd.depth - 1)).method.toNat < methodCount pastEnd.cfg ∧
    codeLen pastEnd.cfg (pastEnd.frameAt (pastEnd.depth - 1)).method =
      (pastEnd.frameAt (pastEnd.depth - 1)).pc.toNat := by decide

theorem witness_QuietStepIsTheEngines :
    root.cfg.Wf ∧ hostQuiet { root with inputs := [.quiet, .reset] } = true ∧ root.status = .running := by decide

theorem witness_StoppedCoreIsQuiescent :
    (idle.cfg.Wf ∧ hostQuiet idle = true ∧ idle.status ≠ .running) ∧
    (failed.cfg.Wf ∧ hostQuiet { failed with inputs := [.quiet] } = true ∧ failed.status ≠ .running) := by decide

/-- At the last method, from Halted and from Faulted; at the first index out of bounds the next theorem. -/
theorem witness_StartBeginsRun :
    idle.status ≠ .running ∧ failed.status ≠ .running ∧ (1#8).toNat < methodCount idle.cfg ∧
    1 ≤ regCount idle.cfg 1 ∧ 0 < (1#8).toNat ∧ (1#8).toNat < regCount idle.cfg 1 := by decide

theorem witness_StartWithBadEntryFaults : idle.status ≠ .running ∧ methodCount idle.cfg ≤ (2#8).toNat := by decide

theorem witness_StartAcceptedWhenNotRunning :
    root.status = .running ∧ idle.status = .halted ∧ failed.status = .faulted := by decide

theorem witness_HostEventsTakeEffect :
    root.cfg.Wf ∧ { root with inputs := [.reset, .quiet] }.inputs = .reset :: [.quiet] ∧
    { idle with inputs := [.start 1 Value.nil] }.inputs = .start 1 Value.nil :: [] := by decide

/-- Reset also ends a run in progress. -/
theorem witness_ResetFromAnyState : callee.status = .running ∧ callee.resetInstance.status = .halted := by decide

theorem witness_LoadOnlyBetweenRuns :
    idle.cfg.Wf ∧ { idle with inputs := [.load demoImage] }.inputs = .load demoImage :: [] ∧ idle.status ≠ .running ∧
    root.status = .running ∧ demoImage.Wf ∧ ¬ Image.Wf { demoImage with maxDepth := 0 } := by decide

theorem witness_BadConfigurationRefused :
    ¬ { idle.cfg with image := { demoImage with maxDepth := 0 } }.Wf := by decide

theorem witness_BrokenStackStops :
    (root.cfg.Wf ∧ hostQuiet { root with depth := 0 } = true ∧ root.status = .running ∧
      { root with depth := 0 }.depth = 0) ∧
    (0 < root.depth ∧ methodCount root.cfg ≤ ((root.pushFrame 2 0 Value.nil).frameAt 1).method.toNat) := by decide

theorem witness_NoCrossFrameAliasing :
    StackInv callee ∧ 0 < callee.depth ∧ 1 < callee.depth ∧ (2#8).toNat < callee.regsAt 0 ∧
    (1#8).toNat < callee.regsAt 1 := by decide

theorem witness_StepKeepsInv :
    Inv root ∧ loadsWhileFaulted root = false ∧ Inv callee ∧ Inv failed ∧ Inv idle ∧
    Inv { idle with inputs := [.load demoImage] } ∧ (nextOf (step root)).isSome = true ∧
    loadsWhileFaulted { idle with inputs := [.load demoImage] } = false :=
  ⟨by decide, by decide, by decide, by decide, by decide, by decide, by decide, by decide⟩

theorem witness_StepKeepsRunInv :
    RunInv { failed with inputs := [.load demoImage] } ∧
    (nextOf (step { failed with inputs := [.load demoImage] })).isSome = true := by decide

theorem witness_RunningCoreSteps : RunInv callee ∧ hostQuiet callee = true ∧ callee.status = .running := by decide

theorem witness_WindowsDisjointInsideArena :
    callee.cfg.Wf ∧ StackInv callee ∧ 0 < 1 ∧ 1 < callee.depth := by decide

theorem witness_DatapathNeverWraps :
    (callee.cfg.Wf ∧ StackInv callee ∧ (callee.frameAt 1).pc.toNat < codeLen callee.cfg (callee.frameAt 1).method ∧
      (1#8).toNat < callee.regsAt 1 ∧ root.depth < root.cfg.image.maxDepth) ∧
    (RunInv atCall ∧ atCall.status = .running ∧
      (nextOf (engineStep atCall)).map (fun t => decide (t.depth ≠ atCall.depth)) = some true) ∧
    (RunInv atReturn ∧ atReturn.status = .running ∧
      (nextOf (engineStep atReturn)).map (fun t => decide (t.depth ≠ atReturn.depth)) = some true) :=
  ⟨by decide, ⟨by decide, by decide, by decide⟩, by decide, by decide, by decide⟩

/-- A step that keeps the suspended register, and a RETURN that delivers to it. -/
theorem witness_SuspendedRegistersKept :
    (RunInv callee ∧ hostQuiet callee = true ∧ callee.status = .running ∧ (nextOf (step callee)).isSome = true ∧
      0 < callee.depth - 1 ∧ (2#8).toNat < callee.regsAt 0) ∧
    (RunInv atReturn ∧ (nextOf (step atReturn)).isSome = true ∧ 0 < atReturn.depth - 1 ∧
      executing atReturn = some (.ret 1) ∧ (atReturn.frameAt 1).ret = 2#8) :=
  ⟨⟨by decide, by decide, by decide, by decide, by decide, by decide⟩,
    by decide, by decide, by decide, by decide, by decide⟩

theorem witness_StoresReadOnly :
    ∃ t, step root = .next t ∧ (∀ im rest, root.inputs ≠ .load im :: rest) := ⟨_, rfl, nofun⟩

theorem witness_TraceOnlyGrows :
    ∃ t, step (oneWord 0x00000006 true) = .next t ∧
      (∀ rest, (oneWord 0x00000006 true).inputs ≠ .reset :: rest) := ⟨_, rfl, nofun⟩

theorem witness_ResultWriters :
    ∃ t, step atRootReturn = .next t ∧ t.status = .halted ∧
      (∃ u, step { atRootReturn with inputs := [.quiet] } = .next u) := ⟨_, rfl, rfl, _, rfl⟩

theorem witness_ResultWriters_changes :
    (nextOf (step (oneWord 0x00000005 true))).map (fun t => decide (t.result ≠ Value.nil)) = some true := by decide

theorem witness_TypeMismatchNeverRaised :
    (nextOf (step { idle with fault := { FaultRecord.clear with cause := some .typeMismatch } })).map
      (fun t => t.fault.cause) = some (some .typeMismatch) := by decide

theorem witness_DepthWriters :
    (nextOf (step atCall)).map (fun t => decide (t.depth ≠ atCall.depth)) = some true ∧
    (nextOf (step atReturn)).map (fun t => decide (t.depth ≠ atReturn.depth)) = some true := by decide

theorem witness_CallReturnBalance :
    (RunInv atReturn ∧ atReturn.inputs = [] ∧ (tally 1 atReturn ⟨0, 0⟩).map (·.1) = some ⟨0, 1⟩ ∧
      (tally 1 atCall ⟨0, 0⟩).map (·.1) = some ⟨1, 0⟩) ∧
    ((oneWord 0x00000005 true).resetInstance.startRequest 0 Value.nil).status = .running ∧
    (tally 1 ((oneWord 0x00000005 true).resetInstance.startRequest 0 Value.nil) ⟨0, 0⟩).map
      (fun p => (p.1, p.2.status)) = some (⟨0, 1⟩, .halted) ∧
    RunInv (oneWord 0x00000005 true).resetInstance ∧ (oneWord 0x00000005 true).resetInstance.inputs = [] :=
  ⟨⟨by decide, rfl, by decide, by decide⟩, by decide, by decide, by decide, rfl⟩

theorem witness_EveryRunEnds :
    RunInv idle ∧ idle.status ≠ .running ∧ RunInv failed ∧ failed.status ≠ .running ∧ RunInv callee ∧
    callee.inputs = [] ∧ callee.status = .running ∧ runBound idle.cfg = 13 ∧ frameBound idle.cfg = 4 ∧
    (tally 0 ({ idle with inputs := [] }.startRequest 0 Value.nil) ⟨0, 0⟩).isSome = true :=
  ⟨by decide, by decide, by decide, by decide, by decide, rfl, by decide, by decide, by decide, rfl⟩

/-- One step inside the callee, seen from the root frame below it. -/
theorem witness_CallersUntouchedInsideCall :
    RunInv callee ∧ callee.inputs = [] ∧ callee.status = .running ∧ (stepsAbove callee.depth 1 callee).isSome = true ∧
    0 < callee.depth - 1 ∧ (2#8).toNat < callee.regsAt 0 :=
  ⟨by decide, rfl, by decide, by decide, by decide, by decide⟩

/-- A function on Values that keeps Nil and confuses every Value with it. -/
def forget (_ : Value) : Value := Value.nil

/-- The root frame, whose register 0 holds Int(7), seen through `forget`. -/
def forgotten : State := { root with cfg := mapConfig forget root.cfg, arena := [] }

theorem witness_ValuesNeverInterpreted :
    forget Value.nil = Value.nil ∧ RenamedBy forget root forgotten ∧ root.reg 0 0 = intValue 7 :=
  ⟨rfl, ⟨rfl, fun _ => rfl, rfl, rfl, rfl, rfl, rfl, rfl, rfl⟩, by decide⟩

theorem witness_OnlyBadStartFaultsWithEmptyStack :
    BadStart { idle with inputs := [.start 2 Value.nil] } 2 Value.nil [] ∧
    (nextOf (step { idle with inputs := [.start 2 Value.nil] })).map (fun t => (t.status, t.depth)) =
      some (.faulted, 0) ∧
    EmptyFaultInv (idle.startFault 2) ∧ (nextOf (step (idle.startFault 2))).isSome = true ∧
    (nextOf (step pastEnd)).map (fun t => t.status) = some .faulted :=
  ⟨⟨rfl, by decide, by decide⟩, by decide, by decide, by decide, by decide⟩

theorem witness_FaultLevelFitsItsField :
    RunInv callee ∧ FaultLevelInv callee ∧ loadsWhileFaulted callee = false ∧ (nextOf (step callee)).isSome = true ∧
    FaultLevelInv failed ∧ failed.fault.level = 1 :=
  ⟨by decide, by decide, by decide, by decide, by decide, by decide⟩

end Sys2Proof.Tests
end

section
/-!
Proofs of the statements of 00_scope: a configuration outside the bounds gives nobody a step.
-/

namespace Sys2Proof.Machine

/-- Log entry 8: the step boundary refuses the configuration before it looks at the host's events. -/
theorem turn_of_not_wf {s : State} (h : ¬ s.cfg.Wf) : turn s = .host (.refused .notAConfiguration) :=
  if_neg h

/-- When the host has the turn, its outcome is the step's. -/
theorem step_of_turn_host {s : State} {o : Result} (h : turn s = .host o) : step s = o := by
  simp only [step, h]

/-- Settles O38: by the turn at the step boundary, whatever the status and the host's events. -/
theorem badConfigurationRefused : Obligations.BadConfigurationRefused := by
  intro s hc
  exact step_of_turn_host (turn_of_not_wf hc)

end Sys2Proof.Machine
end

section
/-!
What a step of a Running core does, by the instruction it executes: the shape of every proof about a step of 10_state.
-/

namespace Sys2Proof.Machine

section
variable (s : State) (e : MethodIdx) (a : Value) (l : Nat)

@[simp] theorem startRun_cfg : (s.startRun e a).cfg = s.cfg := rfl
@[simp] theorem startRun_depth : (s.startRun e a).depth = 1 := rfl
@[simp] theorem startRun_status : (s.startRun e a).status = .running := rfl
@[simp] theorem startRun_result : (s.startRun e a).result = Value.nil := rfl
@[simp] theorem startRun_fault : (s.startRun e a).fault = FaultRecord.clear := rfl
@[simp] theorem startRun_debugTrace : (s.startRun e a).debugTrace = s.debugTrace := rfl

@[simp] theorem startFault_cfg : (s.startFault e).cfg = s.cfg := rfl
@[simp] theorem startFault_arena : (s.startFault e).arena = s.arena := rfl
@[simp] theorem startFault_frames : (s.startFault e).frames = s.frames := rfl
@[simp] theorem startFault_depth : (s.startFault e).depth = 0 := rfl
@[simp] theorem startFault_status : (s.startFault e).status = .faulted := rfl
@[simp] theorem startFault_result : (s.startFault e).result = Value.nil := rfl
@[simp] theorem startFault_fault :
    (s.startFault e).fault = { cause := some .methodIndexOutOfBounds, level := 0, method := e, pc := 0 } := rfl
@[simp] theorem startFault_debugTrace : (s.startFault e).debugTrace = s.debugTrace := rfl

@[simp] theorem resetInstance_cfg : s.resetInstance.cfg = s.cfg := rfl
@[simp] theorem resetInstance_depth : s.resetInstance.depth = 0 := rfl
@[simp] theorem resetInstance_status : s.resetInstance.status = .halted := rfl
@[simp] theorem resetInstance_result : s.resetInstance.result = Value.nil := rfl
@[simp] theorem resetInstance_fault : s.resetInstance.fault = FaultRecord.clear := rfl
@[simp] theorem resetInstance_debugTrace : s.resetInstance.debugTrace = [] := rfl

/-- The record of the current frame after its program counter advances (40_dispatch R101). -/
theorem advance_frameAt :
    s.advance.frameAt l = if l = s.top then { s.current with pc := s.current.pc + 1 } else s.frameAt l :=
  advanceAt_frameAt s s.top l

@[simp] theorem setInputs_executing (es : List HostEvent) : executing (s.setInputs es) = executing s := rfl

end

/-- A start request is ignored, or faults on its ENTRY, or begins a run (50_host_interface R152 to R154). -/
theorem startRequest_cases (s : State) (e : MethodIdx) (a : Value) :
    (s.status = .running ∧ s.startRequest e a = s) ∨
    (s.status ≠ .running ∧ methodCount s.cfg ≤ e.toNat ∧ s.startRequest e a = s.startFault e) ∨
    (s.status ≠ .running ∧ e.toNat < methodCount s.cfg ∧ s.startRequest e a = s.startRun e a) := by
  unfold State.startRequest
  by_cases hr : s.status = .running
  · exact .inl ⟨hr, if_pos hr⟩
  · rw [if_neg hr]
    by_cases hm : methodOutOfBounds s.cfg e = true
    · exact .inr (.inl ⟨hr, methodOutOfBounds_eq_true.1 hm, if_pos hm⟩)
    · exact .inr (.inr ⟨hr, methodOutOfBounds_eq_false.1 (by simpa using hm), if_neg hm⟩)

/-- A start request changes neither the configuration nor the trace. -/
theorem startRequest_keeps (s : State) (e : MethodIdx) (a : Value) :
    (s.startRequest e a).cfg = s.cfg ∧ (s.startRequest e a).debugTrace = s.debugTrace := by
  obtain ⟨-, h⟩ | ⟨-, -, h⟩ | ⟨-, -, h⟩ := startRequest_cases s e a <;> simp [h]

/-- The instruction being executed is the one decoded from the word at the current frame's program counter
(40_dispatch R91, R93). -/
theorem executing_eq_some {s : State} {i : Instr} :
    executing s = some i ↔ s.status = .running ∧ 0 < s.depth ∧ s.current.method.toNat < methodCount s.cfg ∧
      ∃ w, codeWord s.cfg s.current.method s.current.pc = some w ∧ decode s.cfg w = .instr i := by
  unfold executing
  by_cases hr : s.status = .running
  · by_cases hd : s.depth = 0
    · simp [fetch, hd]
    · by_cases hm : s.current.method.toNat < methodCount s.cfg
      · cases hw : codeWord s.cfg s.current.method s.current.pc with
        | none => simp [fetch, methodOutOfBounds, hd, hm, hw]
        | some w =>
          rw [if_pos hr, fetch_of_word (Nat.pos_of_ne_zero hd) hm hw]
          cases hdec : decode s.cfg w <;> simp [decodeFetched, hdec, hr, hm, Nat.pos_of_ne_zero hd]
      · simp [fetch, methodOutOfBounds, hd, hm]
  · simp [hr]

/-- TypeMismatch is no instruction's cause (60_exceptions R178, R191). -/
theorem typeMismatch_not_mem_executeCauses (i : Instr) : .typeMismatch ∉ executeCauses i := by
  cases i <;> simp [executeCauses]

/-- The step of a Running core runs in a frame and enters one fault or completes the instruction it executes. -/
theorem engineStep_running {s t : State} (h : engineStep s = .next t) (hr : s.status = .running) :
    0 < s.depth ∧
    ((∃ c, c ≠ .typeMismatch ∧ t = s.enterFault c) ∨ ∃ i, executing s = some i ∧ Completes s t i) := by
  obtain ⟨hd, hm, ⟨-, ht⟩ | ⟨w, hw, ⟨op, -, ht⟩ | ⟨i, hdec, hi⟩⟩⟩ := engineStep_next h
  · exact ⟨hd, .inl ⟨_, by decide, ht⟩⟩
  · exact ⟨hd, .inl ⟨_, by decide, ht⟩⟩
  · obtain ⟨-, ⟨c, hc, ht⟩ | hcomp⟩ := exec_next hi
    · exact ⟨hd, .inl ⟨c, fun he => typeMismatch_not_mem_executeCauses i (he ▸ hc), ht⟩⟩
    · exact ⟨hd, .inr ⟨i, executing_eq_some.2 ⟨hr, hd, hm, w, hw, hdec⟩, hcomp⟩⟩

/-- One record with its program counter one further and the others the same, read level by level. -/
theorem onlyPcAdvances_of_frameAt {s t : State} {l : Nat}
    (h : ∀ k, t.frameAt k = if k = l then { s.frameAt l with pc := (s.frameAt l).pc + 1 } else s.frameAt k) :
    OnlyPcAdvances s t l := by
  have hl := h l
  rw [if_pos rfl] at hl
  exact ⟨by rw [hl], by rw [hl], by rw [hl], by rw [hl], fun k hk => by rw [h k, if_neg hk]⟩

section
variable {s t : State} {i : Instr}

/-- No instruction that completes writes the configuration, the fault record or the host's events. -/
theorem Completes.keeps (h : Completes s t i) : t.cfg = s.cfg ∧ t.fault = s.fault ∧ t.inputs = s.inputs := by
  cases i with
  | move src dst => obtain ⟨-, -, rfl⟩ := h; simp
  | literal index dest => obtain ⟨-, v, -, rfl⟩ := h; simp
  | call arg method result => obtain ⟨-, -, -, -, -, rfl⟩ := h; simp
  | ret result => obtain ⟨-, ⟨-, rfl⟩ | ⟨-, -, -, rfl⟩⟩ := h <;> simp
  | hackPrint reg => obtain ⟨-, rfl⟩ := h; simp

/-- STATUS, DEPTH and the program counters after an instruction that completes (40_dispatch R95). -/
theorem Completes.nextByTable (h : Completes s t i) (hr : s.status = .running) (hd : 0 < s.depth) :
    NextByTable s t i := by
  cases i with
  | move src dst =>
    obtain ⟨-, -, rfl⟩ := h
    exact ⟨hr, rfl, onlyPcAdvances_of_frameAt fun k => advance_frameAt (s.writeReg ..) k⟩
  | literal index dest =>
    obtain ⟨-, v, -, rfl⟩ := h
    exact ⟨hr, rfl, onlyPcAdvances_of_frameAt fun k => advance_frameAt (s.writeReg ..) k⟩
  | call arg method result =>
    obtain ⟨-, -, -, -, -, rfl⟩ := h
    exact ⟨hr, rfl, by rw [pushFrame_frameAt, if_pos rfl], fun l hl => by rw [pushFrame_frameAt, if_neg hl]⟩
  | ret result =>
    obtain ⟨-, ⟨h1, rfl⟩ | ⟨h1, -, -, rfl⟩⟩ := h
    · simp [NextByTable, h1]
    · rw [NextByTable, if_neg h1]
      exact ⟨hr, Nat.sub_add_cancel hd, onlyPcAdvances_of_frameAt fun k => afterDeliver_frameAt s _ k⟩
  | hackPrint reg =>
    obtain ⟨-, rfl⟩ := h
    exact ⟨hr, rfl, onlyPcAdvances_of_frameAt fun k => advance_frameAt (s.emitDebug _) k⟩

/-- RESULT is written by the RETURN of the root frame alone (42_call_return R127). -/
theorem Completes.result (h : Completes s t i) :
    t.result = s.result ∨ ∃ a, i = .ret a ∧ s.depth = 1 ∧ t = s.halt (s.readReg a) := by
  cases i with
  | move src dst => obtain ⟨-, -, rfl⟩ := h; exact .inl rfl
  | literal index dest => obtain ⟨-, v, -, rfl⟩ := h; exact .inl rfl
  | call arg method result => obtain ⟨-, -, -, -, -, rfl⟩ := h; exact .inl rfl
  | ret result =>
    obtain ⟨-, ⟨h1, rfl⟩ | ⟨-, -, -, rfl⟩⟩ := h
    · exact .inr ⟨result, rfl, h1, rfl⟩
    · exact .inl rfl
  | hackPrint reg => obtain ⟨-, rfl⟩ := h; exact .inl rfl

/-- The trace is written by HACK_PRINT alone (43_debug R140). -/
theorem Completes.debugTrace (h : Completes s t i) :
    t.debugTrace = s.debugTrace ∨ ∃ a, i = .hackPrint a ∧ t.debugTrace = s.debugTrace ++ [s.readReg a] := by
  cases i with
  | move src dst => obtain ⟨-, -, rfl⟩ := h; exact .inl rfl
  | literal index dest => obtain ⟨-, v, -, rfl⟩ := h; exact .inl rfl
  | call arg method result => obtain ⟨-, -, -, -, -, rfl⟩ := h; exact .inl rfl
  | ret result => obtain ⟨-, ⟨-, rfl⟩ | ⟨-, -, -, rfl⟩⟩ := h <;> exact .inl rfl
  | hackPrint reg => obtain ⟨-, rfl⟩ := h; exact .inr ⟨reg, rfl, rfl⟩

/-- DEPTH is written by CALL and RETURN alone (40_dispatch R102). -/
theorem Completes.depth (h : Completes s t i) (hr : s.status = .running) (hd : 0 < s.depth) :
    t.depth = s.depth ∨ (∃ a m r, i = .call a m r ∧ t.depth = s.depth + 1) ∨
      ∃ a, i = .ret a ∧ t.depth + 1 = s.depth := by
  have ht := h.nextByTable hr hd
  cases i with
  | move src dst => exact .inl ht.2.1
  | literal index dest => exact .inl ht.2.1
  | call arg method result => exact .inr (.inl ⟨_, _, _, rfl, ht.2.1⟩)
  | ret result =>
    refine .inr (.inr ⟨_, rfl, ?_⟩)
    by_cases h1 : s.depth = 1 <;> simp only [NextByTable, h1, if_true, if_false] at ht <;> omega
  | hackPrint reg => exact .inl ht.2.1

end

end Sys2Proof.Machine
end

section
/-!
Who writes DEPTH, DEBUG_TRACE and RESULT (10_state R21, R29, R31).
-/

namespace Sys2Proof.Machine

/-- Settles O42: CALL and RETURN by `Completes.depth`; a load, the idle step and a fault entry leave DEPTH alone. -/
theorem depthWriters : Obligations.DepthWriters := by
  intro s t h hne
  obtain ⟨rest, hin, -⟩ | ⟨e, a, rest, hin, -⟩ | ⟨im, rest, -, -, -, rfl⟩ | ⟨-, -, rfl⟩ | ⟨-, hr, he⟩ :=
    (step_next h).2
  · exact .inl ⟨rest, hin⟩
  · exact .inr (.inl ⟨e, a, rest, hin⟩)
  · exact absurd rfl hne
  · exact absurd rfl hne
  · obtain ⟨hd, ⟨c, -, rfl⟩ | ⟨i, hi, hcomp⟩⟩ := engineStep_running he hr
    · exact absurd rfl hne
    · obtain hsame | ⟨a, m, r, rfl, hup⟩ | ⟨a, rfl, hdown⟩ := hcomp.depth hr hd
      · exact absurd hsame hne
      · exact .inr (.inr (.inl ⟨a, m, r, hi, hup⟩))
      · exact .inr (.inr (.inr ⟨a, hi, hdown⟩))

/-- Settles O51: HACK_PRINT by `Completes.debugTrace`; of the other steps only a reset touches the trace. -/
theorem traceOnlyGrows : Obligations.TraceOnlyGrows := by
  intro s t h hnoreset
  obtain ⟨rest, hin, -⟩ | ⟨e, a, rest, -, rfl⟩ | ⟨im, rest, -, -, -, rfl⟩ | ⟨-, -, rfl⟩ | ⟨-, hr, he⟩ :=
    (step_next h).2
  · exact absurd hin (hnoreset rest)
  · exact .inl (startRequest_keeps _ e a).2
  · exact .inl rfl
  · exact .inl rfl
  · obtain ⟨-, ⟨c, -, rfl⟩ | ⟨i, hi, hcomp⟩⟩ := engineStep_running he hr
    · exact .inl rfl
    · obtain hsame | ⟨a, rfl, hprint⟩ := hcomp.debugTrace
      · exact .inl hsame
      · exact .inr ⟨a, hi, hprint⟩

/-- An accepted start request clears RESULT (50_host_interface R153, R154); an ignored one changes nothing. -/
theorem startRequest_result (s : State) (e : MethodIdx) (a : Value) :
    (s.startRequest e a).result = s.result ∨ (s.startRequest e a).result = Value.nil := by
  obtain ⟨-, h⟩ | ⟨-, -, h⟩ | ⟨-, -, h⟩ := startRequest_cases s e a <;> simp [h]

/-- Settles O52: the RETURN of the root frame by `Completes.result`, a start request by `startRequest_result`. -/
theorem resultWriters : Obligations.ResultWriters := by
  intro s t h hne
  obtain ⟨rest, hin, -⟩ | ⟨e, a, rest, hin, rfl⟩ | ⟨im, rest, -, -, -, rfl⟩ | ⟨-, -, rfl⟩ | ⟨-, hr, he⟩ :=
    (step_next h).2
  · exact .inl ⟨rest, hin⟩
  · exact .inr (.inl ⟨e, a, rest, hin, (startRequest_result (s.setInputs rest) e a).resolve_left hne⟩)
  · exact absurd rfl hne
  · exact absurd rfl hne
  · obtain ⟨-, ⟨c, -, rfl⟩ | ⟨i, hi, hcomp⟩⟩ := engineStep_running he hr
    · exact absurd rfl hne
    · obtain hsame | ⟨a, rfl, h1, rfl⟩ := hcomp.result
      · exact absurd hsame hne
      · have htop : s.top = 0 := by simp only [setInputs_depth] at h1; simp [State.top, h1]
        exact .inr (.inr ⟨h1, a, hi, congrArg (s.reg · a) htop⟩)

end Sys2Proof.Machine
end

section
/-!
The part of the invariants that does not look at the frames on the stack: STATUS, the two sparse arrays and the outputs
(10_state R33 items 1 to 3, R29; 60_exceptions R178; 43_debug R141). Every step at all keeps it.
-/

namespace Sys2Proof.Machine

/-- What `Inv` and `RunInv` share: everything but the frames on the stack. -/
abbrev CoreInv (s : State) : Prop := s.cfg.Wf ∧ StatusInv s ∧ StoresWf s ∧ OutputInv s

theorem inv_iff {s : State} : Inv s ↔ CoreInv s ∧ StackInv s :=
  ⟨fun ⟨hc, hst, hk, hsw, ho⟩ => ⟨⟨hc, hst, hsw, ho⟩, hk⟩, fun ⟨⟨hc, hst, hsw, ho⟩, hk⟩ => ⟨hc, hst, hk, hsw, ho⟩⟩

theorem runInv_iff {s : State} : RunInv s ↔ CoreInv s ∧ (s.status = .running → StackInv s) :=
  ⟨fun ⟨hc, hst, hk, hsw, ho⟩ => ⟨⟨hc, hst, hsw, ho⟩, hk⟩, fun ⟨⟨hc, hst, hsw, ho⟩, hk⟩ => ⟨hc, hst, hk, hsw, ho⟩⟩

/-- An instruction is a CALL only by CALL's opcode byte, with B as the method and C as the caller-target register
(30_encoding R75). -/
theorem decode_call {c : Config} {w : Word} {a : RegIdx} {m : MethodIdx} {r : RegIdx}
    (h : decode c w = .instr (.call a m r)) :
    opcodeByte w = c.opcodes.call ∧ (decodeABC w).b = m ∧ (decodeABC w).c = r := by
  unfold decode at h
  split_ifs at h <;> cases h
  exact ⟨‹opcodeByte w = c.opcodes.call›, rfl, rfl⟩

/-- No word is a HACK_PRINT in a core without it (43_debug R141). -/
theorem hackPrintPresent_of_decode {c : Config} {w : Word} {a : RegIdx} (h : decode c w = .instr (.hackPrint a)) :
    c.hackPrintPresent = true := by
  unfold decode at h
  split_ifs at h with _ _ _ _ hp <;> cases h
  exact hp.2

/-- A Running core has recorded no fault. -/
theorem cause_eq_none_of_running {s : State} (h : StatusInv s) (hr : s.status = .running) : s.fault.cause = none := by
  obtain ⟨-, -, hfaulted⟩ := h
  by_contra hc
  simp [hfaulted.2 hc] at hr

/-! ### STATUS against DEPTH and the fault record -/

/-- An instruction that completes leaves the core Running with a frame, or Halted with none. -/
theorem Completes.status_depth {s t : State} {i : Instr} (h : Completes s t i) (hr : s.status = .running)
    (hd : 0 < s.depth) : (t.status = .running ∧ 1 ≤ t.depth) ∨ (t.status = .halted ∧ t.depth = 0) := by
  have ht := h.nextByTable hr hd
  cases i with
  | move src dst => exact .inl ⟨ht.1, ht.2.1 ▸ hd⟩
  | literal index dest => exact .inl ⟨ht.1, ht.2.1 ▸ hd⟩
  | call arg method result => exact .inl ⟨ht.1, by have := ht.2.1; omega⟩
  | ret result =>
    by_cases h1 : s.depth = 1
    · rw [NextByTable, if_pos h1] at ht
      exact .inr ⟨ht.1, ht.2.1⟩
    · rw [NextByTable, if_neg h1] at ht
      exact .inl ⟨ht.1, by have := ht.2.1; omega⟩
  | hackPrint reg => exact .inl ⟨ht.1, ht.2.1 ▸ hd⟩

theorem Completes.statusInv {s t : State} {i : Instr} (h : Completes s t i) (hr : s.status = .running)
    (hd : 0 < s.depth) (hs : StatusInv s) : StatusInv t := by
  have hc : t.fault.cause = none := h.keeps.2.1 ▸ cause_eq_none_of_running hs hr
  obtain ⟨ht, htd⟩ | ⟨ht, htd⟩ := h.status_depth hr hd <;> simp [StatusInv, ht, htd, hc]

theorem startRequest_statusInv {s : State} (e : MethodIdx) (a : Value) (hs : StatusInv s) :
    StatusInv (s.startRequest e a) := by
  obtain ⟨-, h⟩ | ⟨-, -, h⟩ | ⟨-, -, h⟩ := startRequest_cases s e a <;> rw [h]
  · exact hs
  · simp [StatusInv]
  · simp [StatusInv, FaultRecord.clear]

/-! ### The canonical form of the arena and the frames -/

theorem writeReg_storesWf {s : State} (i : RegIdx) (v : Value) (h : StoresWf s) : StoresWf (s.writeReg i v) :=
  ⟨setSlot_arena_wf _ _ h.1, h.2⟩

theorem advance_storesWf {s : State} (h : StoresWf s) : StoresWf s.advance :=
  ⟨h.1, setFrame_frames_wf _ _ h.2⟩

theorem pushFrame_storesWf {s : State} (m : MethodIdx) (r : RegIdx) (v : Value) (h : StoresWf s) :
    StoresWf (s.pushFrame m r v) :=
  ⟨pushFrame_arena_wf m r v h.1, pushFrame_frames_wf m r v h.2⟩

theorem Completes.storesWf {s t : State} {i : Instr} (h : Completes s t i) (hs : StoresWf s) : StoresWf t := by
  cases i with
  | move src dst => obtain ⟨-, -, rfl⟩ := h; exact advance_storesWf (writeReg_storesWf _ _ hs)
  | literal index dest => obtain ⟨-, v, -, rfl⟩ := h; exact advance_storesWf (writeReg_storesWf _ _ hs)
  | call arg method result => obtain ⟨-, -, -, -, -, rfl⟩ := h; exact pushFrame_storesWf _ _ _ hs
  | ret result =>
    obtain ⟨-, ⟨-, rfl⟩ | ⟨-, -, -, rfl⟩⟩ := h
    · exact hs
    · exact advance_storesWf (writeReg_storesWf (s := { s with depth := s.depth - 1 }) _ _ hs)
  | hackPrint reg => obtain ⟨-, rfl⟩ := h; exact advance_storesWf hs

theorem startRequest_storesWf {s : State} (e : MethodIdx) (a : Value) (hs : StoresWf s) :
    StoresWf (s.startRequest e a) := by
  obtain ⟨-, h⟩ | ⟨-, -, h⟩ | ⟨-, -, h⟩ := startRequest_cases s e a <;> rw [h]
  · exact hs
  · exact hs
  · exact pushFrame_storesWf (s := s.clearForStart) e 0 a hs

/-! ### RESULT, the recorded cause and the trace -/

/-- A HACK_PRINT is executed only by a core that has it (43_debug R141). -/
theorem hackPrintPresent_of_executing {s : State} {a : RegIdx} (h : executing s = some (.hackPrint a)) :
    s.cfg.hackPrintPresent = true := by
  obtain ⟨-, -, -, w, -, hdec⟩ := executing_eq_some.1 h
  exact hackPrintPresent_of_decode hdec

theorem Completes.outputInv {s t : State} {i : Instr} (h : Completes s t i) (hi : executing s = some i)
    (hr : s.status = .running) (hs : OutputInv s) : OutputInv t := by
  obtain ⟨hres, hcause, htrace⟩ := hs
  obtain ⟨hcfg, hfault, -⟩ := h.keeps
  refine ⟨fun hn => ?_, hfault ▸ hcause, fun hp => ?_⟩
  · obtain hsame | ⟨a, -, -, rfl⟩ := h.result
    · rw [hsame, hres (by simp [hr])]
    · exact absurd rfl hn
  · rw [hcfg] at hp
    obtain hsame | ⟨a, rfl, -⟩ := h.debugTrace
    · rw [hsame, htrace hp]
    · simp [hackPrintPresent_of_executing hi] at hp

theorem startRequest_outputInv {s : State} (e : MethodIdx) (a : Value) (hs : OutputInv s) :
    OutputInv (s.startRequest e a) := by
  obtain ⟨-, h⟩ | ⟨-, -, h⟩ | ⟨-, -, h⟩ := startRequest_cases s e a <;> rw [h]
  · exact hs
  · exact ⟨fun _ => rfl, by simp, hs.2.2⟩
  · exact ⟨fun _ => rfl, by simp [FaultRecord.clear], hs.2.2⟩

/-! ### Every step -/

theorem resetInstance_coreInv {s : State} (hc : s.cfg.Wf) : CoreInv s.resetInstance :=
  ⟨hc, by simp [StatusInv, FaultRecord.clear], reset_stores_wf, fun _ => rfl, by simp [FaultRecord.clear], fun _ => rfl⟩

theorem startRequest_coreInv {s : State} (e : MethodIdx) (a : Value) (h : CoreInv s) :
    CoreInv (s.startRequest e a) := by
  obtain ⟨hc, hst, hsw, ho⟩ := h
  exact ⟨(startRequest_keeps s e a).1 ▸ hc, startRequest_statusInv e a hst, startRequest_storesWf e a hsw,
    startRequest_outputInv e a ho⟩

theorem setImage_coreInv {s : State} {im : Image} (him : im.Wf) (h : CoreInv s) : CoreInv (s.setImage im) := by
  obtain ⟨hc, hst, hsw, ho⟩ := h
  exact ⟨⟨hc.1, him⟩, hst, hsw, ho⟩

theorem enterFault_coreInv {s : State} {c : Cause} (hne : c ≠ .typeMismatch) (hr : s.status = .running)
    (h : CoreInv s) : CoreInv (s.enterFault c) := by
  obtain ⟨hc, -, hsw, hres, -, htrace⟩ := h
  exact ⟨hc, by simp [StatusInv], hsw, fun _ => hres (by simp [hr]), by simpa using hne, htrace⟩

theorem Completes.coreInv {s t : State} {i : Instr} (h : Completes s t i) (hi : executing s = some i) (hs : CoreInv s) :
    CoreInv t := by
  obtain ⟨hr, hd, -⟩ := executing_eq_some.1 hi
  obtain ⟨hc, hst, hsw, ho⟩ := hs
  exact ⟨h.keeps.1 ▸ hc, h.statusInv hr hd hst, h.storesWf hsw, h.outputInv hi hr ho⟩

theorem step_coreInv {s t : State} (hs : CoreInv s) (h : step s = .next t) : CoreInv t := by
  obtain ⟨rest, -, rfl⟩ | ⟨e, a, rest, -, rfl⟩ | ⟨im, rest, -, -, him, rfl⟩ | ⟨-, -, rfl⟩ | ⟨-, hr, he⟩ :=
    (step_next h).2
  · exact resetInstance_coreInv (s := s.setInputs rest) hs.1
  · exact startRequest_coreInv (s := s.setInputs rest) e a hs
  · exact setImage_coreInv (s := s.setInputs rest) him hs
  · exact hs
  · obtain ⟨-, ⟨c, hne, rfl⟩ | ⟨i, hi, hcomp⟩⟩ := engineStep_running he hr
    · exact enterFault_coreInv (s := s.setInputs s.inputs.tail) hne hr hs
    · exact hcomp.coreInv hi hs

end Sys2Proof.Machine
end

section
/-!
The frames on the stack (10_state R33 items 4 to 9): every step keeps them, but a load under a faulted run
(log entry 9).
-/

namespace Sys2Proof.Machine

/-- The incremented program counter does not wrap where a word was fetched (40_dispatch R101). -/
theorem toNat_pc_succ {c : Config} (hc : c.Wf) {m : MethodIdx} {pc : Pc} (h : pc.toNat < codeLen c m) :
    (pc + 1).toNat = pc.toNat + 1 := by
  have hlen := codeLen_le hc m
  bv_omega

/-- 10_state R33 item 7, with its word. -/
theorem suspendedInCall_iff {s : State} {l : Nat} :
    suspendedInCall s l = true ↔
      ∃ w, codeWord s.cfg (s.frameAt l).method (s.frameAt l).pc = some w ∧ opcodeByte w = s.cfg.opcodes.call ∧
        (decodeABC w).b = (s.frameAt (l + 1)).method ∧ (decodeABC w).c = (s.frameAt (l + 1)).ret := by
  unfold suspendedInCall
  cases codeWord s.cfg (s.frameAt l).method (s.frameAt l).pc <;> simp [and_assoc]

/-- A program counter that names a word is below CodeLen. -/
theorem pc_lt_of_codeWord {c : Config} {m : MethodIdx} {pc : Pc} {w : Word} (h : codeWord c m pc = some w) :
    pc.toNat < codeLen c m := codeWord_isSome.1 (by simp [h])

/-! ### One lemma for each way the stack changes -/

theorem stackInv_of_depth_zero {s : State} (h : s.depth = 0) : StackInv s := by
  simp [StackInv, h]

section
variable (s : State) (l : Nat)

@[simp] theorem advance_frameAt_method : (s.advance.frameAt l).method = (s.frameAt l).method := by
  rw [advance_frameAt]
  split
  · next h => subst h; rfl
  · rfl

@[simp] theorem advance_frameAt_ret : (s.advance.frameAt l).ret = (s.frameAt l).ret := by
  rw [advance_frameAt]
  split
  · next h => subst h; rfl
  · rfl

@[simp] theorem advance_frameAt_wbase : (s.advance.frameAt l).wbase = (s.frameAt l).wbase := by
  rw [advance_frameAt]
  split
  · next h => subst h; rfl
  · rfl

@[simp] theorem advance_regsAt : s.advance.regsAt l = s.regsAt l := by
  simp [State.regsAt]

end

/-- The current frame moves on past a word of its code (40_dispatch R101). -/
theorem stackInv_advance {s : State} (hc : s.cfg.Wf) (h : StackInv s)
    (hpc : s.current.pc.toNat < codeLen s.cfg s.current.method) : StackInv s.advance := by
  obtain ⟨hdepth, hmethod, hpcs, hcall, hret, hbase, hstack⟩ := h
  refine ⟨hdepth, by simpa using hmethod, fun l hl => ?_, fun l hl => ?_, by simpa using hret, by simpa using hbase,
    by simpa using hstack⟩
  · rw [advance_frameAt]
    split
    · have := toNat_pc_succ hc hpc
      simp only [advance_cfg]
      omega
    · exact hpcs l hl
  · have hl' : l < s.depth - 1 := hl
    have hne : s.advance.frameAt l = s.frameAt l := by
      rw [advance_frameAt, if_neg (by unfold State.top; omega)]
    simpa [suspendedInCall, hne] using hcall l hl'

/-- The current frame is dropped (42_call_return R126). -/
theorem stackInv_pop {s : State} (h : StackInv s) : StackInv { s with depth := s.depth - 1 } := by
  obtain ⟨hdepth, hmethod, hpcs, hcall, hret, hbase, hstack⟩ := h
  have up {l n : Nat} (hl : l < n - 1) : l < n := by omega
  exact ⟨(Nat.sub_le ..).trans hdepth, fun l hl => hmethod l (up hl), fun l hl => hpcs l (up hl),
    fun l hl => hcall l (up hl), fun l hl => hret l (up hl), fun hl => hbase (up hl), fun l hl => hstack l (up hl)⟩

/-- The caller resumes after its CALL (42_call_return R126). -/
theorem stackInv_afterDeliver {s : State} (hc : s.cfg.Wf) (h : StackInv s) (hd : 1 < s.depth) (v : Value) :
    StackInv (s.afterDeliver v) := by
  have ⟨_, _, _, hcall, _⟩ := h
  obtain ⟨w, hw, -⟩ := suspendedInCall_iff.1 (hcall (s.depth - 1 - 1) (by omega))
  exact stackInv_advance (s := State.writeReg { s with depth := s.depth - 1 } s.current.ret v) hc (stackInv_pop h)
    (pc_lt_of_codeWord hw)

section
variable {s : State} {m : MethodIdx} {r : RegIdx} {v : Value}

/-- A push changes no record on the stack. -/
theorem pushFrame_frameAt_of_lt {l : Nat} (hl : l < s.depth) : (s.pushFrame m r v).frameAt l = s.frameAt l := by
  rw [pushFrame_frameAt, if_neg (Nat.ne_of_lt hl)]

/-- The record that a push writes (42_call_return R122). -/
theorem pushFrame_frameAt_depth :
    (s.pushFrame m r v).frameAt s.depth = { method := m, pc := 0, ret := r, wbase := s.newBase } := by
  rw [pushFrame_frameAt, if_pos rfl]

/-- A property of a new frame and of the frames under it holds of every frame after the push. -/
theorem forall_lt_pushFrame {P : Nat → Frame → Prop} (hnew : P s.depth ⟨m, 0, r, s.newBase⟩)
    (hold : ∀ l < s.depth, P l (s.frameAt l)) :
    ∀ l < (s.pushFrame m r v).depth, P l ((s.pushFrame m r v).frameAt l) := by
  intro l hl
  rw [pushFrame_depth] at hl
  obtain hlt | rfl := Nat.lt_succ_iff_lt_or_eq.1 hl
  · rw [pushFrame_frameAt_of_lt hlt]
    exact hold l hlt
  · rw [pushFrame_frameAt_depth]
    exact hnew

/-- A property of each frame and the one above it, when the new frame lies on top. -/
theorem forall_suspended_pushFrame {P : Frame → Frame → Prop}
    (hnew : 0 < s.depth → P s.current ⟨m, 0, r, s.newBase⟩)
    (hold : ∀ l < s.depth - 1, P (s.frameAt l) (s.frameAt (l + 1))) :
    ∀ l < (s.pushFrame m r v).depth - 1, P ((s.pushFrame m r v).frameAt l) ((s.pushFrame m r v).frameAt (l + 1)) := by
  intro l hl
  rw [pushFrame_depth, Nat.add_sub_cancel] at hl
  rw [pushFrame_frameAt_of_lt hl]
  obtain hlt | heq : l + 1 < s.depth ∨ l + 1 = s.depth := Nat.lt_or_eq_of_le hl
  · rw [pushFrame_frameAt_of_lt hlt]
    exact hold l (Nat.lt_sub_of_add_lt hlt)
  · have htop : s.frameAt l = s.current := by rw [State.current, State.top, ← heq]; rfl
    rw [heq, pushFrame_frameAt_depth, htop]
    exact hnew (Nat.zero_lt_of_lt hl)

/-- A frame is pushed on an empty stack, or by the CALL that the current frame is at (42_call_return R121, R122). -/
theorem stackInv_pushFrame (h : StackInv s) (hd : s.depth < s.cfg.image.maxDepth) (hm : m.toNat < methodCount s.cfg)
    (hcaller : 0 < s.depth → r.toNat < s.regsAt s.top ∧
      ∃ w, codeWord s.cfg s.current.method s.current.pc = some w ∧ opcodeByte w = s.cfg.opcodes.call ∧
        (decodeABC w).b = m ∧ (decodeABC w).c = r) :
    StackInv (s.pushFrame m r v) := by
  obtain ⟨-, hmethod, hpcs, hcall, hret, hbase, hstack⟩ := h
  refine ⟨hd, forall_lt_pushFrame (P := fun _ f => f.method.toNat < methodCount s.cfg) hm hmethod,
    forall_lt_pushFrame (P := fun _ f => f.pc.toNat ≤ codeLen s.cfg f.method) (Nat.zero_le _) hpcs, fun l hl => ?_,
    forall_suspended_pushFrame (P := fun f g => g.ret.toNat < regCount s.cfg f.method) (fun h0 => (hcaller h0).1) hret,
    fun _ => ?_,
    forall_suspended_pushFrame (P := fun f g => g.wbase = f.wbase + regCount s.cfg f.method)
      (fun h0 => if_neg (Nat.ne_of_gt h0)) hstack⟩
  · refine suspendedInCall_iff.2 (forall_suspended_pushFrame
      (P := fun f g => ∃ w, codeWord s.cfg f.method f.pc = some w ∧ opcodeByte w = s.cfg.opcodes.call ∧
        (decodeABC w).b = g.method ∧ (decodeABC w).c = g.ret)
      (fun h0 => (hcaller h0).2) (fun l hl => suspendedInCall_iff.1 (hcall l hl)) l hl)
  · exact forall_lt_pushFrame (P := fun l f => l = 0 → f.wbase = 0) (fun h0 => if_pos h0)
      (fun l hl h0 => by subst h0; exact hbase hl) 0 (Nat.succ_pos _) rfl

end

/-! ### Every step -/

theorem Completes.stackInv {s t : State} {i : Instr} (h : Completes s t i) (hi : executing s = some i) (hc : s.cfg.Wf)
    (hs : StackInv s) : StackInv t := by
  obtain ⟨-, hd, -, w, hw, hdec⟩ := executing_eq_some.1 hi
  have hpc := pc_lt_of_codeWord hw
  cases i with
  | move src dst =>
    obtain ⟨-, -, rfl⟩ := h
    exact stackInv_advance (s := s.writeReg dst _) hc hs hpc
  | literal index dest =>
    obtain ⟨-, v, -, rfl⟩ := h
    exact stackInv_advance (s := s.writeReg dest v) hc hs hpc
  | call arg method result =>
    obtain ⟨-, hret, hm, hfull, -, rfl⟩ := h
    exact stackInv_pushFrame hs hfull hm fun _ => ⟨hret, w, hw, decode_call hdec⟩
  | ret result =>
    obtain ⟨-, ⟨-, rfl⟩ | ⟨h1, -, -, rfl⟩⟩ := h
    · exact stackInv_of_depth_zero rfl
    · exact stackInv_afterDeliver hc hs (by omega) _
  | hackPrint reg =>
    obtain ⟨-, rfl⟩ := h
    exact stackInv_advance (s := s.emitDebug _) hc hs hpc

/-- The step of a Running core keeps the frames. -/
theorem engineStep_stackInv {s t : State} (h : engineStep s = .next t) (hr : s.status = .running) (hc : s.cfg.Wf)
    (hs : StackInv s) : StackInv t := by
  obtain ⟨-, ⟨c, -, rfl⟩ | ⟨i, hi, hcomp⟩⟩ := engineStep_running h hr
  · exact hs
  · exact hcomp.stackInv hi hc hs

/-- A start request drops every frame and may push the root frame (50_host_interface R153, R154). -/
theorem startRequest_stackInv {s : State} (e : MethodIdx) (a : Value) (hc : s.cfg.Wf)
    (hs : s.status = .running → StackInv s) : StackInv (s.startRequest e a) := by
  obtain ⟨hr, h⟩ | ⟨-, -, h⟩ | ⟨-, hm, h⟩ := startRequest_cases s e a <;> rw [h]
  · exact hs hr
  · exact stackInv_of_depth_zero rfl
  · exact stackInv_pushFrame (s := s.clearForStart) (v := a) (stackInv_of_depth_zero rfl) hc.2.1 hm
      fun h0 => absurd h0 (Nat.lt_irrefl 0)

/-- Settles O45: `step_coreInv`, and the frames of a core that is Running after the step. -/
theorem stepKeepsRunInv : Obligations.StepKeepsRunInv := by
  refine ⟨fun s h => ?_, fun s t h hstep => ?_⟩
  · obtain ⟨hcore, hstack⟩ := inv_iff.1 h
    exact runInv_iff.2 ⟨hcore, fun _ => hstack⟩
  · obtain ⟨hcore, hstack⟩ := runInv_iff.1 h
    refine runInv_iff.2 ⟨step_coreInv hcore hstep, fun ht => ?_⟩
    obtain ⟨rest, -, rfl⟩ | ⟨e, a, rest, -, rfl⟩ | ⟨im, rest, -, hr, -, rfl⟩ | ⟨-, hr, rfl⟩ | ⟨-, hr, he⟩ :=
      (step_next hstep).2
    · exact stackInv_of_depth_zero rfl
    · exact startRequest_stackInv (s := s.setInputs rest) e a hcore.1 hstack
    · exact absurd ht hr
    · exact absurd ht hr
    · exact engineStep_stackInv he hr hcore.1 (hstack hr)

/-- A load that the premise of log entry 9 admits finds the stack empty. -/
theorem halted_of_load {s : State} {im : Image} {rest : List HostEvent} (hs : StatusInv s)
    (hl : loadsWhileFaulted s = false) (hin : s.inputs = .load im :: rest) (hr : s.status ≠ .running) :
    s.status = .halted ∧ s.depth = 0 := by
  simp only [loadsWhileFaulted, hin, beq_eq_false_iff_ne] at hl
  obtain ⟨-, hhalted, -⟩ := hs
  have hst : s.status = .halted := by
    cases h : s.status with
    | halted => rfl
    | running => exact absurd h hr
    | faulted => exact absurd h hl
  exact ⟨hst, (hhalted hst).1⟩

/-- Settles O44: `step_coreInv`, and the frames through each kind of step. -/
theorem stepKeepsInv : Obligations.StepKeepsInv := by
  intro s t h hload hstep
  obtain ⟨hcore, hstack⟩ := inv_iff.1 h
  refine inv_iff.2 ⟨step_coreInv hcore hstep, ?_⟩
  obtain ⟨rest, -, rfl⟩ | ⟨e, a, rest, -, rfl⟩ | ⟨im, rest, hin, hr, -, rfl⟩ | ⟨-, -, rfl⟩ | ⟨-, hr, he⟩ :=
    (step_next hstep).2
  · exact stackInv_of_depth_zero rfl
  · exact startRequest_stackInv (s := s.setInputs rest) e a hcore.1 fun _ => hstack
  · obtain ⟨-, hst, -⟩ := hcore
    obtain ⟨-, hd⟩ := halted_of_load hst hload hin hr
    exact stackInv_of_depth_zero (s := (s.setInputs rest).setImage im) hd
  · exact hstack
  · exact engineStep_stackInv he hr hcore.1 hstack

/-- Settles O43: the power-on state has an admissible configuration and no frame. -/
theorem invAtReset : Obligations.InvAtReset :=
  inv_iff.2 ⟨resetInstance_coreInv (s := State.reset) (by decide), stackInv_of_depth_zero rfl⟩

end Sys2Proof.Machine
end

section
/-!
The core never interprets a Value (10_state R12): each operation takes two states of which the second is the first with
every Value renamed to two such states, and each comparison it makes comes out the same in both.
-/

namespace Sys2Proof.Machine

/-! ### The stores with every pool entry renamed -/

section
variable (f : Value → Value) (c : Config) (m : MethodIdx)

@[simp] theorem methodOutOfBounds_mapConfig : methodOutOfBounds (mapConfig f c) m = methodOutOfBounds c m := rfl
@[simp] theorem regCount_mapConfig : regCount (mapConfig f c) m = regCount c m := rfl
@[simp] theorem arenaSlots_mapConfig : arenaSlots (mapConfig f c) = arenaSlots c := rfl
@[simp] theorem maxDepth_mapConfig : (mapConfig f c).image.maxDepth = c.image.maxDepth := rfl

theorem poolFor_mapConfig : poolFor (mapConfig f c) m = (poolFor c m).map f := by
  have hp : poolOf (mapConfig f c) m = poolOf c m := rfl
  unfold poolFor
  rw [hp]
  cases poolOf c m with
  | none => rfl
  | some p => cases h : c.image.pools[p]? <;> simp [mapConfig, mapImage, h]

theorem poolEntry_mapConfig (k : PoolIdx) : poolEntry (mapConfig f c) m k = (poolEntry c m k).map f := by
  simp [poolEntry, poolFor_mapConfig]

end

/-! ### What a renamed state shows -/

section
variable {f : Value → Value} {s s' : State} (h : RenamedBy f s s')
include h

theorem RenamedBy.cfg : s'.cfg = mapConfig f s.cfg := h.1

theorem RenamedBy.slot (k : Nat) : s'.slot k = f (s.slot k) := h.2.1 k

theorem RenamedBy.frameAt (l : Nat) : s'.frameAt l = s.frameAt l := by
  obtain ⟨-, -, hframes, -⟩ := h
  simp [State.frameAt, hframes]

theorem RenamedBy.depth : s'.depth = s.depth := by
  obtain ⟨-, -, -, hdepth, -⟩ := h
  exact hdepth

theorem RenamedBy.status : s'.status = s.status := by
  obtain ⟨-, -, -, -, hstatus, -⟩ := h
  exact hstatus

theorem RenamedBy.top : s'.top = s.top := by
  simp [State.top, h.depth]

theorem RenamedBy.current : s'.current = s.current := by
  simp [State.current, h.top, h.frameAt]

theorem RenamedBy.regsAt (l : Nat) : s'.regsAt l = s.regsAt l := by
  simp [State.regsAt, h.cfg, h.frameAt]

theorem RenamedBy.slotOf (l : Nat) (i : RegIdx) : s'.slotOf l i = s.slotOf l i := by
  simp [State.slotOf, h.frameAt]

theorem RenamedBy.readReg (i : RegIdx) : s'.readReg i = f (s.readReg i) := by
  simp [State.readReg, State.reg, h.top, h.slotOf, h.slot]

theorem RenamedBy.regOutside (i : RegIdx) : s'.regOutside i = s.regOutside i := by
  simp [State.regOutside, h.top, h.regsAt]

theorem RenamedBy.poolOperand (k : PoolIdx) : s'.poolOperand k = (s.poolOperand k).map f := by
  simp [State.poolOperand, h.cfg, h.current, poolEntry_mapConfig]

theorem RenamedBy.frameProblem (l : Nat) : s'.frameProblem l = s.frameProblem l := by
  simp [State.frameProblem, h.cfg, h.frameAt, h.regsAt]

theorem RenamedBy.newBase : s'.newBase = s.newBase := by
  simp [State.newBase, h.depth, h.current, h.top, h.regsAt]

theorem RenamedBy.methodOutOfBounds (m : MethodIdx) : methodOutOfBounds s'.cfg m = methodOutOfBounds s.cfg m := by
  simp [h.cfg]

theorem RenamedBy.stackFull : stackFull s'.cfg s'.depth = stackFull s.cfg s.depth := by
  simp [Machine.stackFull, h.cfg, h.depth]

/-- The stores hold no Value but in the pools, so both states fetch and decode the same. -/
theorem RenamedBy.fetch : fetch s' = fetch s := by
  have hword (m : MethodIdx) (pc : Pc) : codeWord (mapConfig f s.cfg) m pc = codeWord s.cfg m pc := rfl
  have hdecode (w : Word) : decodeFetched (mapConfig f s.cfg) w = decodeFetched s.cfg w := rfl
  simp only [Machine.fetch, h.depth, h.current, h.cfg, methodOutOfBounds_mapConfig, hword, hdecode]

end

/-! ### What keeps two states renamed -/

section
variable {f : Value → Value} {s s' : State} (h : RenamedBy f s s')
include h

theorem RenamedBy.setFrame (l : Nat) (g : Frame) : RenamedBy f (s.setFrame l g) (s'.setFrame l g) := by
  obtain ⟨hcfg, hslot, hframes, hrest⟩ := h
  exact ⟨hcfg, hslot, by simp [State.setFrame, hframes], hrest⟩

theorem RenamedBy.advance : RenamedBy f s.advance s'.advance := by
  have hs' : s'.advance = s'.setFrame s.top { s.frameAt s.top with pc := (s.frameAt s.top).pc + 1 } := by
    simp [State.advance, State.advanceAt, h.top, h.frameAt]
  rw [hs']
  exact h.setFrame _ _

theorem RenamedBy.setSlot (k : Nat) (v : Value) : RenamedBy f (s.setSlot k v) (s'.setSlot k (f v)) := by
  obtain ⟨hcfg, hslot, hrest⟩ := h
  refine ⟨hcfg, fun j => ?_, hrest⟩
  simp only [setSlot_slot, hslot]
  split <;> rfl

theorem RenamedBy.writeReg (i : RegIdx) (v : Value) : RenamedBy f (s.writeReg i v) (s'.writeReg i (f v)) := by
  have hk : s'.writeReg i (f v) = s'.setSlot (s.slotOf s.top i) (f v) := by
    simp [State.writeReg, State.setReg, h.top, h.slotOf]
  rw [hk]
  exact h.setSlot _ _

theorem RenamedBy.enterFault (c : Cause) : RenamedBy f (s.enterFault c) (s'.enterFault c) := by
  have hcur := h.current
  obtain ⟨hcfg, hslot, hframes, hdepth, -, hresult, -, hrest⟩ := h
  exact ⟨hcfg, hslot, hframes, hdepth, rfl, hresult, by simp [State.enterFault, hcur, hdepth], hrest⟩

theorem RenamedBy.emitDebug (v : Value) : RenamedBy f (s.emitDebug v) (s'.emitDebug (f v)) := by
  obtain ⟨hcfg, hslot, hframes, hdepth, hstatus, hresult, hfault, htrace, hinputs⟩ := h
  exact ⟨hcfg, hslot, hframes, hdepth, hstatus, hresult, hfault, by simp [htrace], hinputs⟩

theorem RenamedBy.halt (v : Value) : RenamedBy f (s.halt v) (s'.halt (f v)) := by
  obtain ⟨hcfg, hslot, hframes, -, -, -, hrest⟩ := h
  exact ⟨hcfg, hslot, hframes, rfl, rfl, rfl, hrest⟩

theorem RenamedBy.setDepth (d : Nat) : RenamedBy f { s with depth := d } { s' with depth := d } := by
  obtain ⟨hcfg, hslot, hframes, -, hrest⟩ := h
  exact ⟨hcfg, hslot, hframes, rfl, hrest⟩

theorem RenamedBy.afterDeliver (v : Value) : RenamedBy f (s.afterDeliver v) (s'.afterDeliver (f v)) := by
  have hs' : s'.afterDeliver (f v) =
      (State.writeReg { s' with depth := s.depth - 1 } s.current.ret (f v)).advance := by
    simp only [State.afterDeliver, h.current, h.depth]
  rw [hs']
  exact ((h.setDepth _).writeReg _ _).advance

variable (hf : f Value.nil = Value.nil)
include hf

/-- The one place where the machine itself supplies a Value: a fresh window is filled with Nil (42_call_return R122). -/
theorem RenamedBy.pushFrame (m : MethodIdx) (r : RegIdx) (v : Value) :
    RenamedBy f (s.pushFrame m r v) (s'.pushFrame m r (f v)) := by
  have hslots (k : Nat) : (s'.pushFrame m r (f v)).slot k = f ((s.pushFrame m r v).slot k) := by
    simp only [pushFrame_slot, h.newBase, h.cfg, regCount_mapConfig, h.slot]
    split_ifs
    · rfl
    · exact hf.symm
    · rfl
  have hbase := h.newBase
  obtain ⟨hcfg, -, hframes, hdepth, hrest⟩ := h
  exact ⟨hcfg, hslots, by simp [State.pushFrame, hframes, hdepth, hbase], by simp [hdepth], hrest⟩

theorem RenamedBy.clearForStart : RenamedBy f s.clearForStart s'.clearForStart := by
  obtain ⟨hcfg, hslot, hframes, -, hstatus, -, -, hrest⟩ := h
  exact ⟨hcfg, hslot, hframes, rfl, hstatus, hf.symm, rfl, hrest⟩

theorem RenamedBy.startRun (e : MethodIdx) (a : Value) : RenamedBy f (s.startRun e a) (s'.startRun e (f a)) := by
  obtain ⟨hcfg, hslot, hframes, hdepth, -, hrest⟩ := (h.clearForStart hf).pushFrame hf e 0 a
  exact ⟨hcfg, hslot, hframes, hdepth, rfl, hrest⟩

theorem RenamedBy.startFault (e : MethodIdx) : RenamedBy f (s.startFault e) (s'.startFault e) := by
  obtain ⟨hcfg, hslot, hframes, hdepth, -, hresult, -, hrest⟩ := h.clearForStart hf
  exact ⟨hcfg, hslot, hframes, hdepth, rfl, hresult, rfl, hrest⟩

theorem RenamedBy.startRequest (e : MethodIdx) (a : Value) :
    RenamedBy f (s.startRequest e a) (s'.startRequest e (f a)) := by
  simp only [State.startRequest, h.status, h.methodOutOfBounds]
  split_ifs
  · exact h
  · exact h.startFault hf e
  · exact h.startRun hf e a

end

/-! ### The instructions -/

section
variable {f : Value → Value} {s s' : State} (h : RenamedBy f s s')
include h

theorem RenamedBy.inCurrentFrame {k k' : Result} (hk : OutcomeRenamedBy f k k') :
    OutcomeRenamedBy f (inCurrentFrame s k) (inCurrentFrame s' k') := by
  simp only [Machine.inCurrentFrame, h.depth, h.top, h.frameProblem]
  split
  · rfl
  · split
    · rfl
    · exact hk

theorem RenamedBy.deliver (v : Value) : OutcomeRenamedBy f (s.deliver v) (s'.deliver (f v)) := by
  simp only [State.deliver, h.depth, h.frameProblem, h.regsAt, h.current]
  split
  · rfl
  · split
    · rfl
    · exact h.afterDeliver v

theorem RenamedBy.callFrame (hf : f Value.nil = Value.nil) (m : MethodIdx) (r : RegIdx) (v : Value) :
    OutcomeRenamedBy f (s.callFrame m r v) (s'.callFrame m r (f v)) := by
  simp only [State.callFrame, h.newBase, h.cfg, regCount_mapConfig, arenaSlots_mapConfig]
  split
  · exact h.pushFrame hf m r v
  · rfl

theorem RenamedBy.exec (hf : f Value.nil = Value.nil) (i : Instr) : OutcomeRenamedBy f (exec i s) (exec i s') := by
  cases i with
  | move src dst =>
    refine h.inCurrentFrame ?_
    simp only [h.regOutside, h.readReg]
    split
    · exact h.enterFault _
    · exact (h.writeReg _ _).advance
  | literal index dest =>
    refine h.inCurrentFrame ?_
    simp only [h.regOutside, h.poolOperand]
    split
    · exact h.enterFault _
    · cases s.poolOperand index with
      | none => exact h.enterFault _
      | some v => exact (h.writeReg _ v).advance
  | call arg method result =>
    refine h.inCurrentFrame ?_
    simp only [h.regOutside, h.methodOutOfBounds, h.stackFull, h.readReg]
    split_ifs
    · exact h.enterFault _
    · exact h.enterFault _
    · exact h.enterFault _
    · exact h.callFrame hf _ _ _
  | ret result =>
    refine h.inCurrentFrame ?_
    simp only [h.regOutside, h.depth, h.readReg]
    split_ifs
    · exact h.enterFault _
    · exact h.halt _
    · exact h.deliver _
  | hackPrint reg =>
    refine h.inCurrentFrame ?_
    simp only [h.regOutside, h.readReg]
    split
    · exact h.enterFault _
    · exact (h.emitDebug _).advance

theorem RenamedBy.engineStep (hf : f Value.nil = Value.nil) :
    OutcomeRenamedBy f (engineStep s) (engineStep s') := by
  simp only [Machine.engineStep, h.fetch]
  split
  · rfl
  · exact h.enterFault _
  · exact h.exec hf _

end

/-- Settles O57: both states fetch the same instruction, which compares no Value and copies each Value whole. -/
theorem valuesNeverInterpreted : Obligations.ValuesNeverInterpreted :=
  fun _ _ _ hf h => ⟨h.engineStep hf, h.startRequest hf⟩

end Sys2Proof.Machine
end

section
/-!
Windows: registers of frames on the stack lie in the arena and never share a slot (10_state R15, R16), and what a step
leaves of the suspended frames (42_call_return R123, R124).
-/

namespace Sys2Proof.Machine

section
variable {s : State} (h : StackInv s) {l l' : Nat} {i i' : RegIdx}
include h

/-- Registers of a lower level lie below those of a higher one. -/
theorem slotOf_lt_slotOf (hll : l < l') (hl' : l' < s.depth) (hi : i.toNat < s.regsAt l) :
    s.slotOf l i < s.slotOf l' i' := by
  have := window_before h hll hl'
  unfold State.slotOf
  omega

/-- Two registers of frames on the stack are one slot only if they are one register (10_state R16). -/
theorem slotOf_inj (hl : l < s.depth) (hl' : l' < s.depth) (hi : i.toNat < s.regsAt l) (hi' : i'.toNat < s.regsAt l') :
    s.slotOf l i = s.slotOf l' i' ↔ l = l' ∧ i = i' := by
  refine ⟨fun heq => ?_, fun ⟨hll, hii⟩ => by rw [hll, hii]⟩
  obtain hlt | rfl | hgt := Nat.lt_trichotomy l l'
  · exact absurd heq (slotOf_lt_slotOf h hlt hl' hi).ne
  · exact ⟨rfl, BitVec.eq_of_toNat_eq (Nat.add_left_cancel heq)⟩
  · exact absurd heq.symm (slotOf_lt_slotOf h hgt hl hi').ne

/-- A register write read back from every register on the stack (20_memory R51). -/
theorem setReg_reg (v : Value) (hl : l < s.depth) (hl' : l' < s.depth) (hi : i.toNat < s.regsAt l)
    (hi' : i'.toNat < s.regsAt l') : (s.setReg l i v).reg l' i' = if l = l' ∧ i = i' then v else s.reg l' i' := by
  have hslot : (s.setReg l i v).reg l' i' = if s.slotOf l' i' = s.slotOf l i then v else s.reg l' i' :=
    setReg_slot s l (s.slotOf l' i') i v
  simp only [hslot, eq_comm (a := s.slotOf l' i'), slotOf_inj h hl hl' hi hi']

/-- The window of a frame pushed now begins above every register on the stack (42_call_return R122). -/
theorem slotOf_lt_newBase (hl : l < s.depth) (hi : i.toNat < s.regsAt l) : s.slotOf l i < s.newBase := by
  have hbase : s.newBase = (s.frameAt s.top).wbase + s.regsAt s.top := if_neg (by omega)
  rw [hbase, State.slotOf]
  obtain hlt | rfl : l < s.top ∨ l = s.top := by unfold State.top; omega
  · have := window_before h hlt (by unfold State.top; omega)
    omega
  · omega

/-- A push changes no register on the stack. -/
theorem pushFrame_reg_of_lt (m : MethodIdx) (r : RegIdx) (v : Value) (hl : l < s.depth) (hi : i.toNat < s.regsAt l) :
    (s.pushFrame m r v).reg l i = s.reg l i := by
  have hlt := slotOf_lt_newBase h hl hi
  rw [State.reg, State.slotOf, pushFrame_frameAt_of_lt hl, pushFrame_slot, ← State.slotOf, if_neg (by omega),
    if_neg (by omega)]
  rfl

end

@[simp] theorem advance_reg (s : State) (l : Nat) (i : RegIdx) : s.advance.reg l i = s.reg l i := by
  simp [State.reg, State.slotOf]

/-- Settles O47: `window_le` for the arena, `slotOf_inj` for the windows. -/
theorem windowsDisjointInsideArena : Obligations.WindowsDisjointInsideArena :=
  fun _ hc h => ⟨fun _ hl => window_le hc h hl,
    fun _ _ _ _ hl hl' hi hi' hne heq => hne ((slotOf_inj h hl hl' hi hi').1 heq).1⟩

/-- Settles O41. -/
theorem noCrossFrameAliasing : Obligations.NoCrossFrameAliasing :=
  fun _ _ _ _ _ v h hl hl' hi hi' => setReg_reg h v hl hl' hi hi'

/-- A write to the current frame followed by the advance changes no register of a suspended frame. -/
theorem writeReg_advance_reg_suspended {s : State} (h : StackInv s) {l : Nat} {i x : RegIdx} (v : Value)
    (hl : l < s.depth - 1) (hx : x.toNat < s.regsAt l) (hi : i.toNat < s.regsAt s.top) :
    (s.writeReg i v).advance.reg l x = s.reg l x := by
  have htop : s.top < s.depth := by unfold State.top; omega
  rw [advance_reg, State.writeReg, setReg_reg h v htop (by omega) hi hx, if_neg]
  rintro ⟨rfl, -⟩
  exact absurd hl (Nat.lt_irrefl _)

/-- The delivery writes the caller-target register, the pop and the advance no register (42_call_return R126). -/
theorem afterDeliver_reg (s : State) (v : Value) (l : Nat) (x : RegIdx) :
    (s.afterDeliver v).reg l x = (s.setReg (s.depth - 2) s.current.ret v).reg l x :=
  advance_reg (State.writeReg { s with depth := s.depth - 1 } s.current.ret v) l x

/-- An instruction changes no register of a suspended frame, but that RETURN delivers to the frame below. -/
theorem Completes.suspended_reg {s t : State} {i : Instr} (hcomp : Completes s t i) (h : StackInv s) {l : Nat}
    {x : RegIdx} (hl : l < s.depth - 1) (hx : x.toNat < s.regsAt l) :
    t.reg l x = s.reg l x ∨
      (l = s.depth - 2 ∧ x = s.current.ret ∧ t.depth = s.depth - 1 ∧ ∃ a, i = .ret a ∧ t.reg l x = s.readReg a) := by
  cases i with
  | move src dst =>
    obtain ⟨-, hdst, rfl⟩ := hcomp
    exact .inl (writeReg_advance_reg_suspended h _ hl hx hdst)
  | literal index dest =>
    obtain ⟨hdest, v, -, rfl⟩ := hcomp
    exact .inl (writeReg_advance_reg_suspended h v hl hx hdest)
  | call arg method result =>
    obtain ⟨-, -, -, -, -, rfl⟩ := hcomp
    exact .inl (pushFrame_reg_of_lt h _ _ _ (by omega) hx)
  | ret result =>
    obtain ⟨-, ⟨h1, -⟩ | ⟨-, -, hret, rfl⟩⟩ := hcomp
    · omega
    · rw [afterDeliver_reg, setReg_reg h _ (by omega) (by omega) hret hx]
      split
      · next heq => exact .inr ⟨heq.1.symm, heq.2.symm, rfl, result, rfl, rfl⟩
      · exact .inl rfl
  | hackPrint reg =>
    obtain ⟨-, rfl⟩ := hcomp
    exact .inl (advance_reg (s.emitDebug _) l x)

/-- Settles O49: a fault entry writes no register, and `Completes.suspended_reg` for the rest. -/
theorem suspendedRegistersKept : Obligations.SuspendedRegistersKept := by
  intro s t l x hinv hq hr hstep hl hx
  obtain ⟨hc, -, hstack, -⟩ := hinv
  rw [step_quiet hc hq, if_pos hr] at hstep
  obtain ⟨-, ⟨c, -, rfl⟩ | ⟨i, hi, hcomp⟩⟩ := engineStep_running hstep hr
  · exact .inl rfl
  · obtain hsame | ⟨hlevel, htarget, hdepth, a, rfl, hval⟩ := hcomp.suspended_reg (hstack hr) hl hx
    · exact .inl hsame
    · exact .inr ⟨hlevel, htarget, hdepth, a, hi, hval⟩

end Sys2Proof.Machine
end

section
/-!
The outcome of a step from the state before it (60_exceptions R179, 40_dispatch R95): under the stack invariant the
engine enters the first fault whose condition holds, and completes its instruction where none does.
-/

namespace Sys2Proof.Machine

/-! ### The faults of the execute stage, instruction by instruction -/

section
variable (s : State)

theorem decide_regsAt_le (i : RegIdx) : decide (s.regsAt (s.depth - 1) ≤ i.toNat) = s.regOutside i :=
  Bool.eq_iff_iff.2 (decide_eq_true_iff.trans regOutside_eq_true.symm)

theorem executeFault_move (src dst : RegIdx) :
    executeFault s (.move src dst) =
      if s.regOutside src || s.regOutside dst then some .registerOutOfBounds else none := by
  simp [executeFault, registerOperands, poolOperands, methodOperands, decide_regsAt_le]

theorem executeFault_literal (index : PoolIdx) (dest : RegIdx) :
    executeFault s (.literal index dest) =
      if s.regOutside dest then some .registerOutOfBounds
      else if s.poolOperand index = none then some .constantIndexOutOfBounds else none := by
  have hpool : poolLen s.cfg (s.frameAt (s.depth - 1)).method ≤ index.toNat ↔ s.poolOperand index = none :=
    List.getElem?_eq_none_iff.symm
  simp [executeFault, registerOperands, poolOperands, methodOperands, decide_regsAt_le, hpool]

theorem executeFault_call (arg : RegIdx) (method : MethodIdx) (result : RegIdx) :
    executeFault s (.call arg method result) =
      if s.regOutside arg || s.regOutside result then some .registerOutOfBounds
      else if methodOutOfBounds s.cfg method then some .methodIndexOutOfBounds
      else if s.depth = s.cfg.image.maxDepth then some .stackOverflow else none := by
  simp [executeFault, registerOperands, poolOperands, methodOperands, decide_regsAt_le, methodOutOfBounds_eq_true]

theorem executeFault_ret (result : RegIdx) :
    executeFault s (.ret result) = if s.regOutside result then some .registerOutOfBounds else none := by
  simp [executeFault, registerOperands, poolOperands, methodOperands, decide_regsAt_le]

theorem executeFault_hackPrint (reg : RegIdx) :
    executeFault s (.hackPrint reg) = if s.regOutside reg then some .registerOutOfBounds else none := by
  simp [executeFault, registerOperands, poolOperands, methodOperands, decide_regsAt_le]

end

/-! ### The faults of fetch and decode -/

section
variable {s : State}

theorem fetch_of_no_word (hd : 0 < s.depth) (hm : s.current.method.toNat < methodCount s.cfg)
    (hw : codeWord s.cfg s.current.method s.current.pc = none) : fetch s = .trap .pcOutOfBounds := by
  simp only [fetch, Nat.ne_of_gt hd, methodOutOfBounds_eq_false.2 hm, hw, if_false, Bool.false_eq_true]

theorem stepFault_of_no_word (hw : codeWord s.cfg s.current.method s.current.pc = none) :
    stepFault s = some .pcOutOfBounds := by
  rw [stepFault, ← State.top, ← State.current, hw]

variable {w : Word} (hw : codeWord s.cfg s.current.method s.current.pc = some w)
include hw

theorem stepFault_of_invalid {op : Opcode} (hdec : decode s.cfg w = .invalid op) :
    stepFault s = some .invalidOpcode := by
  rw [stepFault, ← State.top, ← State.current, hw]
  simp only [hdec]

theorem stepFault_of_instr {i : Instr} (hdec : decode s.cfg w = .instr i) : stepFault s = executeFault s i := by
  rw [stepFault, ← State.top, ← State.current, hw]
  simp only [hdec]

end

/-! ### The outcome -/

section
variable {s : State} (hc : s.cfg.Wf) (h : StackInv s) (hd : 0 < s.depth)
include hc h

/-- Every frame on the stack is a frame of this machine, so the model's own stops are out of reach (log entry 7). -/
theorem frameProblem_of_stackInv {l : Nat} (hl : l < s.depth) : s.frameProblem l = none :=
  frameProblem_none.2 (frameReady_of_stackInv hc h hl)

/-- A CALL below MAX_DEPTH has room for its window (10_state R15). -/
theorem callFrame_of_stackInv (m : MethodIdx) (r : RegIdx) (v : Value) (hd : s.depth < s.cfg.image.maxDepth) :
    s.callFrame m r v = .next (s.pushFrame m r v) :=
  if_pos (newWindow_le hc h hd m)

/-- A RETURN with a caller delivers (10_state R33 items 5, 8 and 9). -/
theorem deliver_of_stackInv (v : Value) (hd : 1 < s.depth) : s.deliver v = .next (s.afterDeliver v) := by
  have ⟨_, _, _, _, hret, _⟩ := h
  have hcaller : s.current.ret.toNat < s.regsAt (s.depth - 2) := by
    have := hret (s.depth - 2) (by omega)
    rwa [show s.depth - 2 + 1 = s.top by unfold State.top; omega] at this
  rw [State.deliver, frameProblem_of_stackInv hc h (by omega)]
  exact if_neg (by rw [regOutOfBounds_eq_false.2 hcaller]; decide)

include hd

/-- An executed instruction enters the first fault whose condition holds, and completes where none does. -/
theorem exec_follows_executeFault (i : Instr) :
    (∃ c, executeFault s i = some c ∧ exec i s = .next (s.enterFault c)) ∨
    (executeFault s i = none ∧ ∃ t, exec i s = .next t ∧ Completes s t i) := by
  have hready := currentReady_of_stackInv hc h hd
  cases i with
  | move src dst =>
    rw [executeFault_move, exec, execMove, inCurrentFrame_of_ready hready]
    split
    · exact .inl ⟨_, rfl, rfl⟩
    · next hreg =>
      simp only [Bool.or_eq_true, not_or, Bool.not_eq_true, regOutside_eq_false] at hreg
      exact .inr ⟨rfl, _, rfl, hreg.1, hreg.2, rfl⟩
  | literal index dest =>
    rw [executeFault_literal, exec, execLiteral, inCurrentFrame_of_ready hready]
    split
    · exact .inl ⟨_, rfl, rfl⟩
    · next hreg =>
      cases hv : s.poolOperand index with
      | none => exact .inl ⟨_, rfl, rfl⟩
      | some v =>
        simp only [Bool.not_eq_true, regOutside_eq_false] at hreg
        exact .inr ⟨rfl, _, rfl, hreg, v, hv, rfl⟩
  | call arg method result =>
    rw [executeFault_call, exec, execCall, inCurrentFrame_of_ready hready]
    split
    · exact .inl ⟨_, rfl, rfl⟩
    · next hreg =>
      split
      · exact .inl ⟨_, rfl, rfl⟩
      · next hm =>
        simp only [Bool.or_eq_true, not_or, Bool.not_eq_true, regOutside_eq_false] at hreg
        simp only [Bool.not_eq_true, methodOutOfBounds_eq_false] at hm
        by_cases hfull : s.depth = s.cfg.image.maxDepth
        · rw [if_pos hfull, if_pos (stackFull_eq_true.2 hfull.ge)]
          exact .inl ⟨_, rfl, rfl⟩
        · have hroom : s.depth < s.cfg.image.maxDepth := lt_of_le_of_ne h.1 hfull
          rw [if_neg hfull, stackFull_eq_false.2 hroom, if_neg Bool.false_ne_true,
            callFrame_of_stackInv hc h _ _ _ hroom]
          exact .inr ⟨rfl, _, rfl, hreg.1, hreg.2, hm, hroom, newWindow_le hc h hroom _, rfl⟩
  | ret result =>
    rw [executeFault_ret, exec, execRet, inCurrentFrame_of_ready hready]
    split
    · exact .inl ⟨_, rfl, rfl⟩
    · next hreg =>
      simp only [Bool.not_eq_true, regOutside_eq_false] at hreg
      refine .inr ⟨rfl, ?_⟩
      by_cases h1 : s.depth = 1
      · exact ⟨_, if_pos (by simp [isRoot, h1]), hreg, .inl ⟨h1, rfl⟩⟩
      · have hdeliver := deliver_of_stackInv hc h (s.readReg result) (by omega)
        obtain ⟨hcaller, htarget, -⟩ := deliver_next hdeliver
        rw [if_neg (by simp [isRoot, h1])]
        exact ⟨_, hdeliver, hreg, .inr ⟨h1, hcaller, htarget, rfl⟩⟩
  | hackPrint reg =>
    rw [executeFault_hackPrint, exec, execHackPrint, inCurrentFrame_of_ready hready]
    split
    · exact .inl ⟨_, rfl, rfl⟩
    · next hreg =>
      simp only [Bool.not_eq_true, regOutside_eq_false] at hreg
      exact .inr ⟨rfl, _, rfl, hreg, rfl⟩

/-- The step of a Running core enters the first fault whose condition holds, and completes its instruction where
none does (60_exceptions R179). -/
theorem engineStep_follows_stepFault (hr : s.status = .running) :
    (∃ c, stepFault s = some c ∧ engineStep s = .next (s.enterFault c)) ∨
    (stepFault s = none ∧ ∃ i t, executing s = some i ∧ engineStep s = .next t ∧ Completes s t i) := by
  have ⟨_, hmethods, _⟩ := h
  have hm : s.current.method.toNat < methodCount s.cfg := hmethods s.top (by unfold State.top; omega)
  cases hw : codeWord s.cfg s.current.method s.current.pc with
  | none => exact .inl ⟨_, stepFault_of_no_word hw, by rw [engineStep, fetch_of_no_word hd hm hw]; rfl⟩
  | some w =>
    cases hdec : decode s.cfg w with
    | invalid op =>
      exact .inl ⟨_, stepFault_of_invalid hw hdec,
        by simp only [engineStep, fetch_of_word hd hm hw, decodeFetched, hdec, raise]⟩
    | instr i =>
      have hstep : engineStep s = exec i s := by
        simp only [engineStep, fetch_of_word hd hm hw, decodeFetched, hdec]
      rw [stepFault_of_instr hw hdec, hstep]
      obtain hfault | ⟨hnone, t, ht, hcomp⟩ := exec_follows_executeFault hc h hd i
      · exact .inl hfault
      · exact .inr ⟨hnone, i, t, executing_eq_some.2 ⟨hr, hd, hm, w, hw, hdec⟩, ht, hcomp⟩

end

/-- Settles O29: `Completes.nextByTable` where no fault's condition holds. -/
theorem nextStateTable : Obligations.NextStateTable := by
  intro s hinv hr
  obtain ⟨hc, hst, hstack, -⟩ := hinv
  have hd : 0 < s.depth := hst.1 hr
  obtain ⟨c, hfault, hstep⟩ | ⟨hnone, i, t, hi, hstep, hcomp⟩ := engineStep_follows_stepFault hc (hstack hr) hd hr
  · refine ⟨_, hstep, ?_⟩
    rw [hfault]
    exact ⟨rfl, rfl, rfl⟩
  · refine ⟨t, hstep, ?_⟩
    rw [hnone, hi]
    exact hcomp.nextByTable hr hd

end Sys2Proof.Machine
end

section
/-!
The fault record (10_state R30): FAULT_LEVEL fits its field, and the record is all zero where no fault is recorded.
-/

namespace Sys2Proof.Machine

/-- A number fits the bits it needs. -/
theorem lt_two_pow_bitsFor (n : Nat) : n < 2 ^ bitsFor n := by
  unfold bitsFor
  split
  · next h => simp [h]
  · exact Nat.lt_log2_self

theorem faultLevelInv_of_clear {s : State} (h : s.fault = FaultRecord.clear) : FaultLevelInv s :=
  ⟨fun _ => h, by rw [h]; exact Nat.two_pow_pos _⟩

/-- FAULT_LEVEL is below DEPTH, which is at most MAX_DEPTH (10_state R33 item 4). -/
theorem enterFault_faultLevelInv {s : State} (h : StackInv s) (c : Cause) : FaultLevelInv (s.enterFault c) := by
  refine ⟨by simp, ?_⟩
  calc s.depth - 1 ≤ s.depth := Nat.sub_le ..
    _ ≤ s.cfg.image.maxDepth := h.1
    _ < 2 ^ depthBits s.cfg := lt_two_pow_bitsFor _

theorem startRequest_faultLevelInv {s : State} (e : MethodIdx) (a : Value) (h : FaultLevelInv s) :
    FaultLevelInv (s.startRequest e a) := by
  obtain ⟨-, hreq⟩ | ⟨-, -, hreq⟩ | ⟨-, -, hreq⟩ := startRequest_cases s e a <;> rw [hreq]
  · exact h
  · exact ⟨by simp, Nat.two_pow_pos _⟩
  · exact faultLevelInv_of_clear rfl

/-- Settles O59: a fault entry by `enterFault_faultLevelInv`; a load of a Halted core finds the record clear. -/
theorem faultLevelFitsItsField : Obligations.FaultLevelFitsItsField := by
  refine ⟨faultLevelInv_of_clear rfl, fun s t hinv hlevel hload hstep => ?_⟩
  obtain ⟨-, hst, hstack, -⟩ := hinv
  obtain ⟨rest, -, rfl⟩ | ⟨e, a, rest, -, rfl⟩ | ⟨im, rest, hin, hr, -, rfl⟩ | ⟨-, -, rfl⟩ | ⟨-, hr, he⟩ :=
    (step_next hstep).2
  · exact faultLevelInv_of_clear rfl
  · exact startRequest_faultLevelInv (s := s.setInputs rest) e a hlevel
  · obtain ⟨hhalted, -⟩ := halted_of_load hst hload hin hr
    obtain ⟨-, hnofault, -⟩ := hst
    obtain ⟨hclear, -⟩ := hlevel
    exact faultLevelInv_of_clear (s := (s.setInputs rest).setImage im) (hclear (hnofault hhalted).2)
  · exact hlevel
  · obtain ⟨-, ⟨c, -, rfl⟩ | ⟨i, -, hcomp⟩⟩ := engineStep_running he hr
    · exact enterFault_faultLevelInv (s := s.setInputs s.inputs.tail) (hstack hr) c
    · obtain ⟨hcfg, hfault, -⟩ := hcomp.keeps
      unfold FaultLevelInv
      rw [hcfg, hfault]
      exact hlevel

end Sys2Proof.Machine
end

section
/-!
Values as words, the codes on the ports, reset, and the stops of a broken stack (10_state R11, R27, R30, R33, R34).
-/

namespace Sys2Proof.Machine

@[simp] theorem valueOfBits_valueBits (v : Value) : valueOfBits (valueBits v) = v :=
  congrArg₂ Value.mk BitVec.extractLsb'_append_eq_left BitVec.extractLsb'_append_eq_right

@[simp] theorem valueBits_valueOfBits (w : BitVec 68) : valueBits (valueOfBits w) = w :=
  BitVec.extractLsb'_append_extractLsb' (w := 4) (len := 64)

theorem valueBits_injective : Function.Injective valueBits :=
  Function.LeftInverse.injective valueOfBits_valueBits

/-- Nil is the all-zero word (10_state R11). -/
@[simp] theorem valueBits_nil : valueBits Value.nil = 0 := by decide

/-- Settles O9: `valueBits` and `valueOfBits` are inverse to each other. -/
theorem valueIsItsWord : Obligations.ValueIsItsWord :=
  ⟨fun _ => rfl, valueOfBits_valueBits, valueBits_valueOfBits, valueBits_nil,
    fun _ _ => valueBits_injective.eq_iff.symm⟩

theorem statusCode_ne_three (st : Status) : statusCode st ≠ 3 := by
  cases st <;> decide

theorem causeCode_ne_zero (c : Cause) : causeCode c ≠ 0 := by
  cases c <;> decide

theorem causeCode_lt (c : Cause) : (causeCode c).toNat < 8 := by
  cases c <;> decide

theorem faultCauseCode_eq_zero {f : FaultRecord} : faultCauseCode f = 0 ↔ f.cause = none := by
  unfold faultCauseCode
  cases f.cause with
  | none => simp
  | some c => simpa using causeCode_ne_zero c

theorem faultCauseCode_lt (f : FaultRecord) : (faultCauseCode f).toNat < 8 := by
  unfold faultCauseCode
  cases f.cause with
  | none => decide
  | some c => exact causeCode_lt c

/-- Settles O40: the table of codes by computation, and the bounds for every status and record. -/
theorem portCodes : Obligations.PortCodes :=
  ⟨rfl, rfl, rfl, fun _ => faultCauseCode_eq_zero, rfl, rfl, rfl, rfl, rfl, rfl, rfl,
    fun s => ⟨statusCode_ne_three s.status, faultCauseCode_lt s.fault⟩⟩

/-- Settles O35: by the fields of a reset state. -/
theorem resetFromAnyState : Obligations.ResetFromAnyState :=
  fun _ => ⟨rfl, rfl, valueBits_nil, rfl, rfl, rfl, rfl, rfl, rfl⟩

/-- Settles O36: power-on counts as a reset (70_reset_and_hazards R200). -/
theorem powerOnState : Obligations.PowerOnState := by
  obtain ⟨hstatus, hdepth, hresult, hcause, hlevel, hmethod, hpc, htrace, -⟩ := resetFromAnyState State.reset
  exact ⟨hstatus, hdepth, hresult, hcause, hlevel, hmethod, hpc, htrace⟩

theorem fetch_of_depth_zero {s : State} (h : s.depth = 0) : fetch s = .stop .noCurrentFrame := if_pos h

theorem fetch_of_no_codeObject {s : State} (hd : 0 < s.depth) (hm : methodCount s.cfg ≤ s.current.method.toNat) :
    fetch s = .stop .noCodeObject := by
  rw [fetch, if_neg (Nat.ne_of_gt hd), if_pos (methodOutOfBounds_eq_true.2 hm)]

theorem engineStep_of_stop {s : State} {f : Fault} (h : fetch s = .stop f) : engineStep s = .fault f := by
  rw [engineStep, h]

/-- Settles O39: fetch stops before it reads a word. -/
theorem brokenStackStops : Obligations.BrokenStackStops := by
  intro s hc hq hr
  rw [step_quiet hc hq, if_pos hr]
  exact ⟨fun hd => engineStep_of_stop (fetch_of_depth_zero hd),
    fun hd hm => engineStep_of_stop (fetch_of_no_codeObject hd hm)⟩

end Sys2Proof.Machine
end

section
/-!
Serialized code objects (20_memory R41, R46): the bytes of a word in both byte orders, and a loader's reading of them.
-/

namespace Sys2Proof

/-- The ABC encoder concatenates its fields (30_encoding R62, R67). -/
theorem encodeABC_eq_append (a b c : BitVec 8) (op : Opcode) :
    encodeABC a b c op = (a ++ b ++ c ++ op : BitVec (8 + 8 + 8 + 8)) := by
  ext i hi
  simp [encodeABC]
  grind

/-- The four fields of a word are the whole word (30_encoding R68, R71). -/
@[simp] theorem encodeABC_decodeABC (w : Word) :
    encodeABC (decodeABC w).a (decodeABC w).b (decodeABC w).c (decodeABC w).op = w :=
  calc encodeABC (decodeABC w).a (decodeABC w).b (decodeABC w).c (decodeABC w).op
    _ = w.extractLsb' 24 8 ++ w.extractLsb' 16 8 ++ w.extractLsb' 8 8 ++ w.extractLsb' 0 8 := encodeABC_eq_append ..
    _ = w := by simp [BitVec.extractLsb'_append_extractLsb'_eq_extractLsb' (x := w)]

theorem bytesOfWord_littleEndian (w : Word) :
    bytesOfWord .littleEndian w = [(decodeABC w).op, (decodeABC w).c, (decodeABC w).b, (decodeABC w).a] := rfl

theorem bytesOfWord_bigEndian (w : Word) :
    bytesOfWord .bigEndian w = [(decodeABC w).a, (decodeABC w).b, (decodeABC w).c, (decodeABC w).op] := rfl

@[simp] theorem decodeABC_encodeABC (a b c : BitVec 8) (op : Opcode) :
    decodeABC (encodeABC a b c op) = { a := a, b := b, c := c, op := op } := by
  simp [decodeABC]

/-- The bytes of a word, in either order, are read as that word first. -/
theorem codeOfBytes_bytesOfWord_append (o : ByteOrder) (w : Word) (rest : List Byte) :
    codeOfBytes o (bytesOfWord o w ++ rest) = (codeOfBytes o rest).map (w :: ·) := by
  cases o with
  | littleEndian => simp [bytesOfWord_littleEndian, codeOfBytes, wordOfBytes]
  | bigEndian => simp [bytesOfWord_bigEndian, codeOfBytes, wordOfBytes]

theorem codeOfBytes_flatMap_bytesOfWord (o : ByteOrder) (ws : List Word) :
    codeOfBytes o (ws.flatMap (bytesOfWord o)) = some ws := by
  induction ws with
  | nil => rfl
  | cons w ws ih => rw [List.flatMap_cons, codeOfBytes_bytesOfWord_append, ih, Option.map_some]

/-- Four bytes are read at a time, so one to three left over are no word (log entry 16). -/
theorem codeOfBytes_isSome (o : ByteOrder) : ∀ bs : List Byte, (codeOfBytes o bs).isSome = true ↔ bs.length % 4 = 0
  | [] => by simp [codeOfBytes]
  | [_] => by simp [codeOfBytes]
  | [_, _] => by simp [codeOfBytes]
  | [_, _, _] => by simp [codeOfBytes]
  | _ :: _ :: _ :: _ :: rest => by simp [codeOfBytes, codeOfBytes_isSome o rest, Nat.add_assoc]

/-- Settles O8: by induction on the words, each of which is its four bytes; the length four bytes at a time. -/
theorem serializedCodeReadsBack : Obligations.SerializedCodeReadsBack :=
  ⟨fun a b c op => by simp [bytesOfWord_littleEndian, bytesOfWord_bigEndian],
    fun o => ⟨codeOfBytes_flatMap_bytesOfWord o, codeOfBytes_isSome o⟩⟩

end Sys2Proof
end

section
/-!
The read-only stores (20_memory R42, R43, R54): what reads the constant pools, and what writes the configuration.
-/

namespace Sys2Proof.Machine

/-! ### A state with other pools: no condition of an operation reads a pool, so each takes the same branch -/

section
variable (pools : List (List Value)) (s : State)

@[simp] theorem withPools_depth : (withPools pools s).depth = s.depth := rfl
@[simp] theorem withPools_top : (withPools pools s).top = s.top := rfl
@[simp] theorem withPools_frameProblem (l : Nat) : (withPools pools s).frameProblem l = s.frameProblem l := rfl

variable {pools}

/-- Two branches that answer the same but for the pools, under one condition. -/
theorem ite_withPools {p : Prop} [Decidable p] {j j' k k' : Result} (hj : j' = onNext (withPools pools) j)
    (hk : k' = onNext (withPools pools) k) :
    (if p then j' else k') = onNext (withPools pools) (if p then j else k) := by
  rw [hj, hk, apply_ite (onNext (withPools pools))]

theorem inCurrentFrame_withPools {k k' : Result} (hk : k' = onNext (withPools pools) k) :
    inCurrentFrame (withPools pools s) k' = onNext (withPools pools) (inCurrentFrame s k) := by
  refine ite_withPools rfl ?_
  rw [withPools_top, withPools_frameProblem]
  cases s.frameProblem s.top with
  | some f => rfl
  | none => exact hk

theorem callFrame_withPools (m : MethodIdx) (r : RegIdx) (v : Value) :
    (withPools pools s).callFrame m r v = onNext (withPools pools) (s.callFrame m r v) :=
  ite_withPools rfl rfl

theorem deliver_withPools (v : Value) :
    (withPools pools s).deliver v = onNext (withPools pools) (s.deliver v) := by
  unfold State.deliver
  rw [withPools_depth, withPools_frameProblem]
  cases s.frameProblem (s.depth - 2) with
  | some f => rfl
  | none => exact ite_withPools rfl rfl

end

/-- Settles O20: instruction by instruction, along the conditions of its meaning. -/
theorem onlyLiteralReadsPools : Obligations.OnlyLiteralReadsPools := by
  intro pools s i hne
  cases i with
  | literal index dest => exact absurd rfl (hne index dest)
  | move src dst => exact inCurrentFrame_withPools s (ite_withPools rfl rfl)
  | call arg method result =>
    exact inCurrentFrame_withPools s
      (ite_withPools rfl (ite_withPools rfl (ite_withPools rfl (callFrame_withPools s ..))))
  | ret result => exact inCurrentFrame_withPools s (ite_withPools rfl (ite_withPools rfl (deliver_withPools s _)))
  | hackPrint reg => exact inCurrentFrame_withPools s (ite_withPools rfl rfl)

/-- Settles O50: of the steps only a load writes the configuration; an instruction by `Completes.keeps`. -/
theorem storesReadOnly : Obligations.StoresReadOnly := by
  intro s t h hnoload
  obtain ⟨rest, -, rfl⟩ | ⟨e, a, rest, -, rfl⟩ | ⟨im, rest, hin, -⟩ | ⟨-, -, rfl⟩ | ⟨-, hr, he⟩ := (step_next h).2
  · rfl
  · exact (startRequest_keeps _ e a).1
  · exact absurd hin (hnoload im rest)
  · rfl
  · obtain ⟨-, ⟨c, -, rfl⟩ | ⟨i, -, hcomp⟩⟩ := engineStep_running he hr
    · rfl
    · exact hcomp.keeps.1

end Sys2Proof.Machine
end

section
/-!
The fields of a word (30_encoding R60 to R71): both encoders concatenate their fields, and a word is its fields.
-/

namespace Sys2Proof

/-- Concatenation as a number: the field above is shifted by the width of the one below. -/
theorem toNat_append_eq_mul_add {m n : Nat} (x : BitVec m) (y : BitVec n) :
    (x ++ y).toNat = x.toNat * 2 ^ n + y.toNat := by
  rw [BitVec.toNat_append, ← Nat.shiftLeft_add_eq_or_of_lt y.isLt, Nat.shiftLeft_eq]

theorem toNat_append_bytes (a b : BitVec 8) : (a ++ b).toNat = 256 * a.toNat + b.toNat := by
  rw [toNat_append_eq_mul_add]
  omega

/-- The AxC encoder concatenates its fields (30_encoding R63, R69). -/
theorem encodeAxC_eq_append (ax : BitVec 16) (c : BitVec 8) (op : Opcode) :
    encodeAxC ax c op = (ax ++ c ++ op : BitVec (16 + 8 + 8)) := by
  ext i hi
  simp [encodeAxC]
  grind

theorem toNat_encodeABC (a b c : BitVec 8) (op : Opcode) :
    (encodeABC a b c op).toNat = a.toNat * 2 ^ 24 + b.toNat * 2 ^ 16 + c.toNat * 2 ^ 8 + op.toNat := by
  simp only [encodeABC_eq_append, toNat_append_eq_mul_add]
  ring

theorem toNat_encodeAxC (ax : BitVec 16) (c : BitVec 8) (op : Opcode) :
    (encodeAxC ax c op).toNat = ax.toNat * 2 ^ 16 + c.toNat * 2 ^ 8 + op.toNat := by
  simp only [encodeAxC_eq_append, toNat_append_eq_mul_add]
  ring

/-- Ax overlays A and B (30_encoding R64). -/
theorem decodeAxC_ax (w : Word) : (decodeAxC w).ax = (decodeABC w).a ++ (decodeABC w).b :=
  (BitVec.extractLsb'_append_extractLsb'_eq_extractLsb' (x := w) (start₁ := 16) (len₁ := 8) rfl).symm

@[simp] theorem decodeAxC_encodeAxC (ax : BitVec 16) (c : BitVec 8) (op : Opcode) :
    decodeAxC (encodeAxC ax c op) = { ax := ax, c := c, op := op } := by
  simp [decodeAxC]

/-- The cross-form law (30_encoding R71), with Ax as the concatenation of A and B. -/
theorem encodeAxC_append (a b c : BitVec 8) (op : Opcode) : encodeAxC (a ++ b) c op = encodeABC a b c op := by
  rw [encodeAxC_eq_append, encodeABC_eq_append]

@[simp] theorem encodeAxC_decodeAxC (w : Word) :
    encodeAxC (decodeAxC w).ax (decodeAxC w).c (decodeAxC w).op = w := by
  rw [decodeAxC_ax, encodeAxC_append]
  exact encodeABC_decodeABC w

/-- A field depends only on its own bits of the word (30_encoding R71). -/
theorem extractLsb'_congr {start len stop : Nat} {w w' : Word} (hstop : start + len = stop)
    (h : ∀ k, start ≤ k → k < stop → w.getLsbD k = w'.getLsbD k) :
    w.extractLsb' start len = w'.extractLsb' start len := by
  ext i hi
  simp only [BitVec.getElem_extractLsb']
  exact h (start + i) (by omega) (by omega)

/-- Settles O1: both encoders are concatenations, and a concatenation is a weighted sum. -/
theorem encodersConcatenateFields : Obligations.EncodersConcatenateFields := by
  refine ⟨fun a b c op => ⟨encodeABC_eq_append .., toNat_encodeABC ..⟩,
    fun ax c op => ⟨encodeAxC_eq_append .., toNat_encodeAxC ..⟩, fun w => ⟨decodeAxC_ax w, ?_, rfl, rfl⟩⟩
  rw [decodeAxC_ax, toNat_append_bytes]

/-- Settles O2: the round trips of both forms, `extractLsb'_congr` for each field, and `encodeAxC_append`. -/
theorem codecLaws : Obligations.CodecLaws := by
  refine ⟨decodeABC_encodeABC, decodeAxC_encodeAxC, fun w w' => ⟨?a, ?b, ?c, ?op, ?ax⟩,
    fun w => ⟨encodeABC_decodeABC w, encodeAxC_decodeAxC w⟩, fun a b c op => ?cross⟩
  case a => exact extractLsb'_congr rfl
  case b => exact extractLsb'_congr rfl
  case c => exact fun h => ⟨extractLsb'_congr rfl h, extractLsb'_congr rfl h⟩
  case op =>
    intro h
    have hop : opcodeByte w = opcodeByte w' := extractLsb'_congr rfl fun k _ hk => h k hk
    exact ⟨hop, hop⟩
  case ax => exact extractLsb'_congr rfl
  case cross => rw [← toNat_append_bytes, BitVec.ofNat_toNat, BitVec.setWidth_eq, encodeAxC_append]

end Sys2Proof
end

section
/-!
The full decoder (30_encoding R75 to R77): what a word decodes to by its opcode byte, and the canonical word of an
instruction read back.
-/

namespace Sys2Proof

section
variable {c : Config} {w : Word}

theorem decode_of_move (h : opcodeByte w = c.opcodes.move) :
    decode c w = .instr (.move (decodeABC w).a (decodeABC w).b) :=
  if_pos h

theorem decode_of_literal (hm : c.opcodes.Wf) (h : opcodeByte w = c.opcodes.literal) :
    decode c w = .instr (.literal (decodeAxC w).ax (decodeAxC w).c) := by
  obtain ⟨hmove, -⟩ := hm.ne
  simp [decode, h, hmove.symm]

theorem decode_of_call (hm : c.opcodes.Wf) (h : opcodeByte w = c.opcodes.call) :
    decode c w = .instr (.call (decodeABC w).a (decodeABC w).b (decodeABC w).c) := by
  obtain ⟨-, hmove, -, -, hlit, -⟩ := hm.ne
  simp [decode, h, hmove.symm, hlit.symm]

theorem decode_of_ret (hm : c.opcodes.Wf) (h : opcodeByte w = c.opcodes.ret) :
    decode c w = .instr (.ret (decodeABC w).a) := by
  obtain ⟨-, -, hmove, -, -, hlit, -, hcall, -⟩ := hm.ne
  simp [decode, h, hmove.symm, hlit.symm, hcall.symm]

theorem decode_of_hackPrint (hm : c.opcodes.Wf) (h : opcodeByte w = c.opcodes.hackPrint)
    (hp : c.hackPrintPresent = true) : decode c w = .instr (.hackPrint (decodeABC w).a) := by
  obtain ⟨-, -, -, hmove, -, -, hlit, -, hcall, hret⟩ := hm.ne
  simp [decode, h, hp, hmove.symm, hlit.symm, hcall.symm, hret.symm]

/-- When a word is invalid (30_encoding R77): its opcode byte is none of the map's, or HACK_PRINT's in a core without
it. -/
theorem decode_eq_invalid_iff {op : Opcode} :
    decode c w = .invalid op ↔
      opcodeByte w = op ∧ opcodeByte w ≠ c.opcodes.move ∧ opcodeByte w ≠ c.opcodes.literal ∧
        opcodeByte w ≠ c.opcodes.call ∧ opcodeByte w ≠ c.opcodes.ret ∧
        (opcodeByte w = c.opcodes.hackPrint → c.hackPrintPresent = false) := by
  unfold decode
  split_ifs <;> simp_all

/-- HACK_PRINT's opcode byte is invalid in a core without it (43_debug R141). -/
theorem decode_of_hackPrint_absent (hm : c.opcodes.Wf) (h : opcodeByte w = c.opcodes.hackPrint)
    (hp : c.hackPrintPresent = false) : decode c w = .invalid (opcodeByte w) := by
  obtain ⟨-, -, -, hmove, -, -, hlit, -, hcall, hret⟩ := hm.ne
  rw [decode_eq_invalid_iff, h]
  exact ⟨rfl, hmove.symm, hlit.symm, hcall.symm, hret.symm, fun _ => hp⟩

end

/-- The decoder reads a canonical word back as its instruction (30_encoding R76). -/
theorem decode_encode {c : Config} (hm : c.opcodes.Wf) {i : Instr} (hi : i.wf c = true) :
    decode c (encode c.opcodes i) = .instr i := by
  cases i with
  | move src dst => simpa [encode] using decode_of_move (opcodeByte_encodeABC src dst 0 c.opcodes.move)
  | literal index dest =>
    simpa [encode] using decode_of_literal hm (opcodeByte_encodeAxC dest index c.opcodes.literal)
  | call arg method result =>
    simpa [encode] using decode_of_call hm (opcodeByte_encodeABC arg method result c.opcodes.call)
  | ret result => simpa [encode] using decode_of_ret hm (opcodeByte_encodeABC result 0 0 c.opcodes.ret)
  | hackPrint reg =>
    simpa [encode] using decode_of_hackPrint hm (opcodeByte_encodeABC reg 0 0 c.opcodes.hackPrint) hi

/-- Settles O3: the unused fields by the decoder's case for the opcode byte, the rest by `decode_encode`. -/
theorem decodeOfEncode : Obligations.DecodeOfEncode := by
  refine ⟨fun c a b x y hm => ⟨?move, ?ret, ?hackPrint⟩, fun _ _ _ _ _ _ _ _ => ⟨rfl, rfl, rfl, rfl, rfl⟩,
    fun c i hm hi => decode_encode hm hi⟩
  case move => simp [decode_of_move]
  case ret => simp [decode_of_ret hm]
  case hackPrint =>
    cases hp : c.hackPrintPresent with
    | true => simp [decode_of_hackPrint hm, hp]
    | false => simp [decode_of_hackPrint_absent hm, hp]

/-- Settles O4: the decoder's cases, one for each opcode number; the rest is invalid by `decode_eq_invalid_iff`. -/
theorem decoderFollowsOpcodeByte : Obligations.DecoderFollowsOpcodeByte := by
  intro c w hm
  refine ⟨decode_of_move, decode_of_literal hm, decode_of_call hm, decode_of_ret hm, decode_of_hackPrint hm,
    decode_of_hackPrint_absent hm, fun h => ?_⟩
  simp only [OpcodeMap.numbers, List.mem_cons, List.not_mem_nil, or_false, not_or] at h
  obtain ⟨hmove, hlit, hcall, hret, hprint⟩ := h
  exact decode_eq_invalid_iff.2 ⟨rfl, hmove, hlit, hcall, hret, fun hp => absurd hp hprint⟩

/-- Settles O5: `decode_eq_invalid_iff` with the default numbers, as numbers. -/
theorem invalidOpcodeBytes : Obligations.InvalidOpcodeBytes := by
  intro c w hdef
  rw [decode_eq_invalid_iff, hdef]
  simp only [OpcodeMap.default, ne_eq, ← BitVec.toNat_inj]
  cases c.hackPrintPresent with
  | true => simp; omega
  | false => simp; omega

end Sys2Proof
end

section
/-!
The assembler (30_encoding R73, R79): a place takes exactly the spellings of its field, and a line assembles to
an instruction exactly when it spells it.
-/

namespace Sys2Proof.Machine

theorem asmNumber_eq_some_iff {n : Nat} {k : Int} {b : BitVec n} : asmNumber n k = some b ↔ k = b.toNat := by
  unfold asmNumber
  constructor
  · intro h
    split_ifs at h with hk
    obtain ⟨h0, hlt⟩ := hk
    cases h
    rw [BitVec.toNat_ofInt, Int.emod_eq_of_lt h0 (by exact_mod_cast hlt), Int.toNat_of_nonneg h0]
  · rintro rfl
    have hb : 0 ≤ (b.toNat : Int) ∧ (b.toNat : Int) < 2 ^ n := ⟨by omega, by exact_mod_cast b.isLt⟩
    rw [if_pos hb, BitVec.ofInt_natCast, BitVec.ofNat_toNat, BitVec.setWidth_eq]

theorem exists_asmNumber_iff {n : Nat} {k : Int} : (∃ b, asmNumber n k = some b) ↔ 0 ≤ k ∧ k < 2 ^ n := by
  simp [asmNumber]

/-- A number fits a field exactly when it is the number of one of the field's values. -/
theorem fits_iff_exists_toNat {n : Nat} {k : Int} : (0 ≤ k ∧ k < 2 ^ n) ↔ ∃ b : BitVec n, k = b.toNat := by
  simp only [← exists_asmNumber_iff, asmNumber_eq_some_iff]

theorem asmRegister_eq_some_iff {o : AsmOperand} {i : RegIdx} : asmRegister o = some i ↔ WritesRegister o i := by
  cases o <;> simp [asmRegister, asmNumber_eq_some_iff, WritesRegister]

theorem asmIndex_eq_some_iff {n : Nat} {o : AsmOperand} {b : BitVec n} : asmIndex n o = some b ↔ o = .n b.toNat := by
  cases o <;> simp [asmIndex, asmNumber_eq_some_iff]

/-! ### The places of a line -/

theorem takes_register_iff {o : AsmOperand} : AsmField.register.takes o = true ↔ ∃ i, WritesRegister o i := by
  cases o <;> simpa [AsmField.takes, WritesRegister] using fits_iff_exists_toNat (n := 8)

theorem takes_index_iff {n : Nat} {o : AsmOperand} :
    (AsmField.index n).takes o = true ↔ ∃ b : BitVec n, o = .n b.toNat := by
  cases o with
  | r k => simp [AsmField.takes]
  | n k => simpa [AsmField.takes] using fits_iff_exists_toNat

section
variable {fs : List AsmField} {os : List AsmOperand}

theorem operandsFit_nil_iff : operandsFit [] os = true ↔ os = [] := by
  cases os <;> simp [operandsFit]

theorem operandsFit_cons_iff {f : AsmField} :
    operandsFit (f :: fs) os = true ↔ ∃ o os', os = o :: os' ∧ f.takes o = true ∧ operandsFit fs os' = true := by
  cases os <;> simp [operandsFit]

theorem exists_of_operandsFit_register (h : operandsFit (.register :: fs) os = true) :
    ∃ o os' i, os = o :: os' ∧ WritesRegister o i ∧ operandsFit fs os' = true := by
  obtain ⟨o, os', ho, htakes, hrest⟩ := operandsFit_cons_iff.1 h
  obtain ⟨i, hi⟩ := takes_register_iff.1 htakes
  exact ⟨o, os', i, ho, hi, hrest⟩

theorem exists_of_operandsFit_index {n : Nat} (h : operandsFit (.index n :: fs) os = true) :
    ∃ (b : BitVec n) (os' : _), os = .n b.toNat :: os' ∧ operandsFit fs os' = true := by
  obtain ⟨o, os', rfl, htakes, hrest⟩ := operandsFit_cons_iff.1 h
  obtain ⟨b, rfl⟩ := takes_index_iff.1 htakes
  exact ⟨b, os', rfl, hrest⟩

end

/-! ### Legal lines and the instructions they spell -/

theorem exists_writesInstr_of_lineFits {l : AsmLine} (h : lineFits l = true) : ∃ i, WritesInstr l i := by
  obtain ⟨mnemonic, operands⟩ := l
  cases mnemonic <;> rw [lineFits, asmFields] at h
  case move =>
    obtain ⟨x, _, src, rfl, hx, htail⟩ := exists_of_operandsFit_register h
    obtain ⟨y, _, dst, rfl, hy, hnil⟩ := exists_of_operandsFit_register htail
    exact ⟨.move src dst, rfl, x, y, by rw [operandsFit_nil_iff.1 hnil], hx, hy⟩
  case literal =>
    obtain ⟨index, _, rfl, htail⟩ := exists_of_operandsFit_index h
    obtain ⟨y, _, dest, rfl, hy, hnil⟩ := exists_of_operandsFit_register htail
    exact ⟨.literal index dest, rfl, y, by rw [operandsFit_nil_iff.1 hnil], hy⟩
  case call =>
    obtain ⟨x, _, arg, rfl, hx, htail⟩ := exists_of_operandsFit_register h
    obtain ⟨method, _, rfl, htail'⟩ := exists_of_operandsFit_index htail
    obtain ⟨z, _, result, rfl, hz, hnil⟩ := exists_of_operandsFit_register htail'
    exact ⟨.call arg method result, rfl, x, z, by rw [operandsFit_nil_iff.1 hnil], hx, hz⟩
  case ret =>
    obtain ⟨x, _, result, rfl, hx, hnil⟩ := exists_of_operandsFit_register h
    exact ⟨.ret result, rfl, x, by rw [operandsFit_nil_iff.1 hnil], hx⟩
  case hackPrint =>
    obtain ⟨x, _, reg, rfl, hx, hnil⟩ := exists_of_operandsFit_register h
    exact ⟨.hackPrint reg, rfl, x, by rw [operandsFit_nil_iff.1 hnil], hx⟩

theorem lineFits_of_writesInstr {l : AsmLine} {i : Instr} (h : WritesInstr l i) : lineFits l = true := by
  obtain ⟨mnemonic, operands⟩ := l
  cases i with
  | move src dst =>
    obtain ⟨rfl, x, y, rfl, hx, hy⟩ := h
    simp [lineFits, asmFields, operandsFit, takes_register_iff.2 ⟨_, hx⟩, takes_register_iff.2 ⟨_, hy⟩]
  | literal index dest =>
    obtain ⟨rfl, y, rfl, hy⟩ := h
    simp [lineFits, asmFields, operandsFit, takes_index_iff.2 ⟨index, rfl⟩, takes_register_iff.2 ⟨_, hy⟩]
  | call arg method result =>
    obtain ⟨rfl, x, z, rfl, hx, hz⟩ := h
    simp [lineFits, asmFields, operandsFit, takes_register_iff.2 ⟨_, hx⟩, takes_index_iff.2 ⟨method, rfl⟩,
      takes_register_iff.2 ⟨_, hz⟩]
  | ret result =>
    obtain ⟨rfl, x, rfl, hx⟩ := h
    simp [lineFits, asmFields, operandsFit, takes_register_iff.2 ⟨_, hx⟩]
  | hackPrint reg =>
    obtain ⟨rfl, x, rfl, hx⟩ := h
    simp [lineFits, asmFields, operandsFit, takes_register_iff.2 ⟨_, hx⟩]

/-- The instruction that a line spells is the one the assembler reads. -/
theorem asmInstr_of_writesInstr {l : AsmLine} {i : Instr} (h : WritesInstr l i) : asmInstr l = some i := by
  obtain ⟨mnemonic, operands⟩ := l
  cases i with
  | move src dst =>
    obtain ⟨rfl, x, y, rfl, hx, hy⟩ := h
    simp [asmInstr, asmRegister_eq_some_iff.2 hx, asmRegister_eq_some_iff.2 hy]
  | literal index dest =>
    obtain ⟨rfl, y, rfl, hy⟩ := h
    simp [asmInstr, asmIndex_eq_some_iff.2 rfl, asmRegister_eq_some_iff.2 hy]
  | call arg method result =>
    obtain ⟨rfl, x, z, rfl, hx, hz⟩ := h
    simp [asmInstr, asmIndex_eq_some_iff.2 rfl, asmRegister_eq_some_iff.2 hx, asmRegister_eq_some_iff.2 hz]
  | ret result =>
    obtain ⟨rfl, x, rfl, hx⟩ := h
    simp [asmInstr, asmRegister_eq_some_iff.2 hx]
  | hackPrint reg =>
    obtain ⟨rfl, x, rfl, hx⟩ := h
    simp [asmInstr, asmRegister_eq_some_iff.2 hx]

/-- A line is read as an instruction only when it spells it. -/
theorem writesInstr_of_asmInstr {l : AsmLine} {i : Instr} (h : asmInstr l = some i) : WritesInstr l i := by
  obtain ⟨mnemonic, operands⟩ := l
  simp only [asmInstr] at h
  split at h <;>
    simp only [Option.bind_eq_some_iff, Option.map_eq_some_iff, asmRegister_eq_some_iff, asmIndex_eq_some_iff,
      reduceCtorEq] at h
  next x y =>
    obtain ⟨src, hx, dst, hy, rfl⟩ := h
    exact ⟨rfl, x, y, rfl, hx, hy⟩
  next y =>
    obtain ⟨index, rfl, dest, hy, rfl⟩ := h
    exact ⟨rfl, y, rfl, hy⟩
  next x _ z =>
    obtain ⟨arg, hx, method, rfl, result, hz, rfl⟩ := h
    exact ⟨rfl, x, z, rfl, hx, hz⟩
  next x =>
    obtain ⟨result, hx, rfl⟩ := h
    exact ⟨rfl, x, rfl, hx⟩
  next x =>
    obtain ⟨reg, hx, rfl⟩ := h
    exact ⟨rfl, x, rfl, hx⟩

theorem asmInstr_eq_some_iff {l : AsmLine} {i : Instr} : asmInstr l = some i ↔ WritesInstr l i :=
  ⟨writesInstr_of_asmInstr, asmInstr_of_writesInstr⟩

theorem lineFits_iff {l : AsmLine} : lineFits l = true ↔ ∃ i, WritesInstr l i :=
  ⟨exists_writesInstr_of_lineFits, fun ⟨_, h⟩ => lineFits_of_writesInstr h⟩

theorem assemble_eq_some_iff {m : OpcodeMap} {l : AsmLine} {w : Word} :
    assemble m l = some w ↔ ∃ i, WritesInstr l i ∧ w = encode m i := by
  simp [assemble, asmInstr_eq_some_iff, eq_comm (a := w)]

/-- A line assembles exactly when it is legal (30_encoding R73, R79). -/
theorem assembles_iff_lineFits {m : OpcodeMap} {l : AsmLine} : (∃ w, assemble m l = some w) ↔ lineFits l = true := by
  simp only [assemble_eq_some_iff, lineFits_iff]
  exact ⟨fun ⟨_, i, hi, _⟩ => ⟨i, hi⟩, fun ⟨i, hi⟩ => ⟨_, i, hi, rfl⟩⟩

theorem assemble_of_writesInstr (m : OpcodeMap) {l : AsmLine} {i : Instr} (h : WritesInstr l i) :
    assemble m l = some (encode m i) :=
  assemble_eq_some_iff.2 ⟨i, h, rfl⟩

/-- The line of an instruction spells it, its registers as `rN`. -/
theorem writesInstr_asmLine (i : Instr) : WritesInstr (asmLine i) i := by
  cases i <;> simp [WritesInstr, asmLine, WritesRegister]

/-- Settles O7: the assembled and the legal lines are both the spellings of instructions. -/
theorem assemblerAcceptsExactlyWhatFits : Obligations.AssemblerAcceptsExactlyWhatFits := by
  refine ⟨fun _ _ => assembles_iff_lineFits, ?rejects, fun m _ _ => assemble_of_writesInstr m,
    fun _ _ _ => assemble_eq_some_iff.1, fun m i => assemble_of_writesInstr m (writesInstr_asmLine i),
    fun _ _ => exists_asmNumber_iff, fun _ _ _ h => (asmNumber_eq_some_iff.1 h).symm⟩
  case rejects =>
    intro m l hl
    by_contra hw
    have hfits := assembles_iff_lineFits.1 (Option.ne_none_iff_exists'.1 hw)
    simp [hl] at hfits

end Sys2Proof.Machine
end

section
/-!
The step of 40_dispatch: what each outcome of fetch and decode makes of it, and that a boundary with no host event leaves
the step to the engine.
-/

namespace Sys2Proof.Machine

theorem onlyFaultEntry_enterFault (s : State) (c : Cause) : OnlyFaultEntry s (s.enterFault c) c :=
  ⟨rfl, rfl, rfl, rfl, rfl, rfl, rfl, rfl, rfl, rfl, rfl, rfl⟩

/-! ### The engine's step, by what fetch and decode answer -/

section
variable {s : State} (hd : 0 < s.depth) (hm : s.current.method.toNat < methodCount s.cfg)
include hd hm

theorem engineStep_of_no_word (hw : codeWord s.cfg s.current.method s.current.pc = none) :
    engineStep s = .next (s.enterFault .pcOutOfBounds) := by
  rw [engineStep, fetch_of_no_word hd hm hw]
  rfl

variable {w : Word} (hw : codeWord s.cfg s.current.method s.current.pc = some w)
include hw

theorem engineStep_of_invalid {op : Opcode} (hdec : decode s.cfg w = .invalid op) :
    engineStep s = .next (s.enterFault .invalidOpcode) := by
  simp only [engineStep, fetch_of_word hd hm hw, decodeFetched, hdec, raise]

theorem engineStep_of_instr {i : Instr} (hdec : decode s.cfg w = .instr i) : engineStep s = exec i s := by
  simp only [engineStep, fetch_of_word hd hm hw, decodeFetched, hdec]

end

/-- Settles O28: there is no word at or past CodeLen. -/
theorem fetchPastEndFaults : Obligations.FetchPastEndFaults := by
  intro s hd hm hpc
  have hw : codeWord s.cfg s.current.method s.current.pc = none :=
    Option.not_isSome_iff_eq_none.1 fun h => Nat.not_lt.2 hpc (codeWord_isSome.1 h)
  exact ⟨_, engineStep_of_no_word hd hm hw, onlyFaultEntry_enterFault s _⟩

/-- Settles O27: the decoder's cases for the bytes outside the map and for an absent HACK_PRINT, and
`engineStep_of_invalid`. -/
theorem invalidOpcodeFaults : Obligations.InvalidOpcodeFaults := by
  intro s w hmap hd hm hw
  obtain ⟨-, -, -, -, -, habsent, hnone⟩ := decoderFollowsOpcodeByte s.cfg w hmap
  refine ⟨⟨fun hdec => ?_, fun h => h.elim hnone fun ⟨hprint, hp⟩ => habsent hprint hp⟩,
    fun op hdec => ⟨_, engineStep_of_invalid hd hm hw hdec, onlyFaultEntry_enterFault s _⟩⟩
  obtain ⟨-, hmove, hlit, hcall, hret, hpresent⟩ := decode_eq_invalid_iff.1 hdec
  by_cases hprint : opcodeByte w = s.cfg.opcodes.hackPrint
  · exact .inr ⟨hprint, hpresent hprint⟩
  · exact .inl (by simp [OpcodeMap.numbers, hmove, hlit, hcall, hret, hprint])

/-! ### A boundary with no host event -/

/-- Settles O26. -/
theorem quietStepIsTheEngines : Obligations.QuietStepIsTheEngines :=
  fun _ hc hq hr => (step_quiet hc hq).trans (if_pos hr)

/-- Settles O30. -/
theorem stoppedCoreIsQuiescent : Obligations.StoppedCoreIsQuiescent :=
  fun _ hc hq hr => (step_quiet hc hq).trans (if_neg hr)

/-- Settles O25: the engine's step by O26, in a state with the same frame, word and configuration. -/
theorem stepRunsDecodedInstruction : Obligations.StepRunsDecodedInstruction :=
  fun s _ _ hc hq hr hd hm hw hdec =>
    (quietStepIsTheEngines s hc hq hr).trans (engineStep_of_instr (s := s.setInputs s.inputs.tail) hd hm hw hdec)

/-- The engine enters a fault or completes an instruction wherever the invariants hold (40_dispatch R98). -/
theorem engineStep_of_runInv {s : State} (h : RunInv s) (hr : s.status = .running) :
    (∃ c, engineStep s = .next (s.enterFault c)) ∨
      ∃ i t, executing s = some i ∧ engineStep s = .next t ∧ Completes s t i := by
  obtain ⟨hc, hst, hstack, -⟩ := h
  obtain ⟨c, -, hstep⟩ | ⟨-, hstep⟩ := engineStep_follows_stepFault hc (hstack hr) (hst.1 hr) hr
  · exact .inl ⟨c, hstep⟩
  · exact .inr hstep

/-- Settles O46: the engine's step by O26, which has an outcome by `engineStep_of_runInv`. -/
theorem runningCoreSteps : Obligations.RunningCoreSteps := by
  intro s h hq hr
  rw [quietStepIsTheEngines s h.1 hq hr]
  obtain ⟨c, hstep⟩ | ⟨i, t, -, hstep, -⟩ := engineStep_of_runInv (s := s.setInputs s.inputs.tail) h hr
  · exact ⟨_, hstep⟩
  · exact ⟨t, hstep⟩

end Sys2Proof.Machine
end

section
/-!
The datapath adders (40_dispatch R101 to R103): what they give fits the field it is stored in.
-/

namespace Sys2Proof.Machine

/-- A slot number of the arena fits WB_BITS (10_state R20). -/
theorem lt_two_pow_wbBits {c : Config} {k : Nat} (h : k < arenaSlots c) : k < 2 ^ wbBits c :=
  (Nat.le_sub_one_of_lt h).trans_lt (lt_two_pow_bitsFor _)

section
variable {s : State} (hc : s.cfg.Wf) (h : StackInv s)
include hc h

theorem wbase_lt_arenaSlots {l : Nat} (hl : l < s.depth) : (s.frameAt l).wbase < arenaSlots s.cfg := by
  have hbase := wbase_le hc h l hl
  obtain ⟨-, harena⟩ := window_le hc h hl
  omega

/-- The end of a window is one past a slot of the arena, so it needs one bit more (40_dispatch R103). -/
theorem windowEnd_lt {l : Nat} (hl : l < s.depth) : (s.frameAt l).wbase + s.regsAt l < 2 ^ (wbBits s.cfg + 1) := by
  obtain ⟨hwindow, harena⟩ := window_le hc h hl
  have hlast : arenaSlots s.cfg - 1 < 2 ^ wbBits s.cfg := lt_two_pow_bitsFor _
  rw [Nat.pow_succ]
  omega

theorem slotOf_lt_arenaSlots {l : Nat} {i : RegIdx} (hl : l < s.depth) (hi : i.toNat < s.regsAt l) :
    s.slotOf l i < arenaSlots s.cfg := by
  obtain ⟨hwindow, harena⟩ := window_le hc h hl
  unfold State.slotOf
  omega

/-- A frame pushed below MAX_DEPTH begins inside the arena, even where its window is empty (42_call_return R122). -/
theorem newBase_lt_arenaSlots (hd : s.depth < s.cfg.image.maxDepth) : s.newBase < arenaSlots s.cfg := by
  unfold State.newBase arenaSlots
  split
  · omega
  · obtain ⟨hwindow, -⟩ := window_le hc h (l := s.top) (by unfold State.top; omega)
    rw [show s.top + 1 = s.depth by unfold State.top; omega] at hwindow
    rw [State.current]
    omega

end

/-- A step of the engine that changes DEPTH counts within 0 and MAX_DEPTH (40_dispatch R102). -/
theorem engineStep_depth_ne {s t : State} (hr : s.status = .running) (hstep : engineStep s = .next t)
    (hne : t.depth ≠ s.depth) :
    (∃ a m r, executing s = some (.call a m r) ∧ s.depth < s.cfg.image.maxDepth ∧ t.depth = s.depth + 1) ∨
      ∃ a, executing s = some (.ret a) ∧ t.depth + 1 = s.depth := by
  obtain ⟨hd, ⟨c, -, rfl⟩ | ⟨i, hi, hcomp⟩⟩ := engineStep_running hstep hr
  · exact absurd rfl hne
  · obtain hsame | ⟨a, m, r, rfl, hup⟩ | ⟨a, rfl, hdown⟩ := hcomp.depth hr hd
    · exact absurd hsame hne
    · obtain ⟨-, -, -, hroom, -⟩ := hcomp
      exact .inl ⟨a, m, r, hi, hroom, hup⟩
    · exact .inr ⟨a, hi, hdown⟩

/-- Settles O48: each adder by its lemma; the counter by `engineStep_depth_ne`. -/
theorem datapathNeverWraps : Obligations.DatapathNeverWraps := by
  refine ⟨fun s hc h => ⟨fun l _ hpc => toNat_pc_succ hc hpc, h.1.trans_lt (lt_two_pow_bitsFor _),
    fun hd => Nat.lt_of_le_of_lt hd (lt_two_pow_bitsFor _), fun l hl => ?windows, fun m r v hd => ?push,
    fun l i hl hi => ?slots, fun c => (enterFault_faultLevelInv h c).2⟩, fun s t hinv hr hstep hne => ?counter,
    fun s e a hc => ⟨rfl, hc.2.1⟩⟩
  case windows =>
    obtain ⟨hwindow, harena⟩ := window_le hc h hl
    exact ⟨lt_two_pow_wbBits (wbase_lt_arenaSlots hc h hl), hwindow.trans harena, windowEnd_lt hc h hl⟩
  case push =>
    rw [pushFrame_frameAt_depth]
    exact lt_two_pow_wbBits (newBase_lt_arenaSlots hc h hd)
  case slots =>
    have hslot := slotOf_lt_arenaSlots hc h hl hi
    exact ⟨hslot, lt_two_pow_wbBits hslot⟩
  case counter =>
    obtain ⟨a, m, r, hi, hroom, hup⟩ | ⟨a, hi, hdown⟩ := engineStep_depth_ne hr hstep hne
    · exact .inl ⟨a, m, r, hi, hroom, hup, by omega⟩
    · exact .inr ⟨a, hi, by omega, by omega⟩

end Sys2Proof.Machine
end

section
/-!
Every run ends (40_dispatch R99). Each word that a frame has still to execute is given a cost by the level of the frame,
and the work left in a state is their sum. The work left before an instruction covers what the instruction pays and the
work left after it. With the frames that a word can create as its cost this bounds the CALLs of a run, and with the steps
that it can take, the steps.
-/

namespace Sys2Proof.Machine

theorem codeLen_le_maxCodeLen (c : Config) (m : MethodIdx) : codeLen c m ≤ maxCodeLen c := by
  unfold codeLen maxCodeLen
  split
  · next o ho =>
    rw [← List.foldr_map]
    exact List.le_max_of_le' 0 (List.mem_map_of_mem (List.mem_of_getElem? ho)) le_rfl
  · exact Nat.zero_le _

/-! ### The cost of one word of a frame at level `l` -/

/-- The most frames that one word of a frame at level `l` creates: those of a CALL's subtree. -/
def framesPerWord (c : Config) (l : Nat) : Nat := powerSum (maxCodeLen c) (c.image.maxDepth - 1 - l)

/-- The most steps that one word of a frame at level `l` takes: its own and those inside the call. -/
def stepsPerWord (c : Config) (l : Nat) : Nat := powerSum (maxCodeLen c) (c.image.maxDepth - l)

/-- A word costs one for itself and all the words of a frame one level up, where there is room for that frame. -/
abbrev CoversCall (c : Config) (w : Nat → Nat) : Prop :=
  ∀ l, l + 1 < c.image.maxDepth → w l = 1 + maxCodeLen c * w (l + 1)

theorem framesPerWord_coversCall (c : Config) : CoversCall c (framesPerWord c) := by
  intro l hl
  rw [framesPerWord, framesPerWord, ← powerSum_succ]
  congr 1
  omega

theorem stepsPerWord_coversCall (c : Config) : CoversCall c (stepsPerWord c) := by
  intro l hl
  rw [stepsPerWord, stepsPerWord, ← powerSum_succ]
  congr 1
  omega

theorem powerSum_pos (L : Nat) {d : Nat} (hd : 0 < d) : 0 < powerSum L d := by
  obtain ⟨d, rfl⟩ := Nat.exists_eq_add_of_lt hd
  rw [powerSum_succ]
  omega

theorem stepsPerWord_pos {c : Config} {l : Nat} (hl : l < c.image.maxDepth) : 0 < stepsPerWord c l :=
  powerSum_pos _ (by omega)

/-! ### The work left in a state -/

/-- The cost of the words that the frames below level `n` have still to execute, the one each stands at not counted. -/
def wordsAfter (w : Nat → Nat) (s : State) (n : Nat) : Nat :=
  ∑ l ∈ Finset.range n, (maxCodeLen s.cfg - ((s.frameAt l).pc.toNat + 1)) * w l

/-- The cost of all that is left to execute: a suspended frame has begun the word it stands at, the current one has
not. -/
def workLeft (w : Nat → Nat) (s : State) : Nat :=
  match s.depth with
  | 0 => 0
  | n + 1 => wordsAfter w s n + (maxCodeLen s.cfg - (s.frameAt n).pc.toNat) * w n

section
variable {w : Nat → Nat} {s t : State}

theorem workLeft_of_depth_zero (hd : s.depth = 0) : workLeft w s = 0 := by
  rw [workLeft, hd]

theorem workLeft_of_depth_succ {n : Nat} (hd : s.depth = n + 1) :
    workLeft w s = wordsAfter w s n + (maxCodeLen s.cfg - (s.frameAt n).pc.toNat) * w n := by
  rw [workLeft, hd]

theorem wordsAfter_succ (n : Nat) :
    wordsAfter w s (n + 1) = wordsAfter w s n + (maxCodeLen s.cfg - ((s.frameAt n).pc.toNat + 1)) * w n :=
  Finset.sum_range_succ ..

theorem wordsAfter_congr {n : Nat} (hcfg : t.cfg = s.cfg) (h : ∀ l < n, t.frameAt l = s.frameAt l) :
    wordsAfter w t n = wordsAfter w s n :=
  Finset.sum_congr rfl fun l hl => by rw [hcfg, h l (Finset.mem_range.1 hl)]

/-- A frame at a word: the word, and what comes after it. -/
theorem workLeft_of_word {n : Nat} (hd : s.depth = n + 1)
    (hpc : (s.frameAt n).pc.toNat < codeLen s.cfg (s.frameAt n).method) :
    workLeft w s = wordsAfter w s (n + 1) + w n := by
  have hlen := codeLen_le_maxCodeLen s.cfg (s.frameAt n).method
  rw [workLeft_of_depth_succ hd, wordsAfter_succ, add_assoc, ← Nat.succ_mul]
  congr 2
  omega

/-- The frame at level `n` has moved on past its word and is the current one. -/
theorem workLeft_of_advanced {n : Nat} (hc : s.cfg.Wf) (hcfg : t.cfg = s.cfg) (hd : t.depth = n + 1)
    (hpc : (s.frameAt n).pc.toNat < codeLen s.cfg (s.frameAt n).method) (h : OnlyPcAdvances s t n) :
    workLeft w t = wordsAfter w s (n + 1) := by
  obtain ⟨-, hnext, -, -, hothers⟩ := h
  rw [workLeft_of_depth_succ hd, wordsAfter_succ, wordsAfter_congr hcfg fun l hl => hothers l (Nat.ne_of_lt hl), hnext,
    toNat_pc_succ hc hpc, hcfg]

/-- A new frame at level `n` has all its words before it. -/
theorem workLeft_of_pushed {n : Nat} (hcfg : t.cfg = s.cfg) (hd : t.depth = n + 1) (hpc : (t.frameAt n).pc = 0)
    (hothers : ∀ l, l ≠ n → t.frameAt l = s.frameAt l) :
    workLeft w t = wordsAfter w s n + maxCodeLen s.cfg * w n := by
  rw [workLeft_of_depth_succ hd, wordsAfter_congr hcfg fun l hl => hothers l (Nat.ne_of_lt hl), hpc, hcfg]
  rfl

end

/-! ### The work is paid for by the instructions -/

/-- What an instruction that completes pays: a CALL one, the words of its callee being still to come, and any other all
that its word was charged. -/
def stepCost (w : Nat → Nat) (s : State) : Instr → Nat
  | .call _ _ _ => 1
  | .move _ _ => w s.top
  | .literal _ _ => w s.top
  | .ret _ => w s.top
  | .hackPrint _ => w s.top

/-- The work left before an instruction covers what it pays and the work left after it. -/
theorem Completes.workLeft_add_stepCost_le {w : Nat → Nat} {s t : State} {i : Instr} (h : Completes s t i)
    (hi : executing s = some i) (hc : s.cfg.Wf) (hs : StackInv s) (hw : CoversCall s.cfg w) :
    workLeft w t + stepCost w s i ≤ workLeft w s := by
  obtain ⟨hr, hd, -, word, hword, -⟩ := executing_eq_some.1 hi
  have ht := h.nextByTable hr hd
  obtain ⟨hcfg, -⟩ := h.keeps
  obtain ⟨n, hn⟩ : ∃ n, s.depth = n + 1 := Nat.exists_eq_add_one.2 hd
  have htop : s.top = n := by rw [State.top, hn]; rfl
  have hpc := pc_lt_of_codeWord hword
  rw [State.current, htop] at hpc
  have hadvance : t.depth = s.depth → OnlyPcAdvances s t (s.depth - 1) → workLeft w t + w s.top ≤ workLeft w s := by
    intro htd hadv
    rw [hn] at htd hadv
    rw [workLeft_of_word hn hpc, workLeft_of_advanced hc hcfg htd hpc hadv, htop]
  cases i with
  | move src dst => exact hadvance ht.2.1 ht.2.2
  | literal index dest => exact hadvance ht.2.1 ht.2.2
  | hackPrint reg => exact hadvance ht.2.1 ht.2.2
  | call arg method result =>
    obtain ⟨-, hup, hzero, hothers⟩ := ht
    obtain ⟨-, -, -, hroom, -⟩ := h
    rw [hn] at hup hzero hothers hroom
    rw [workLeft_of_word hn hpc, workLeft_of_pushed hcfg hup hzero hothers, hw n hroom, stepCost]
    omega
  | ret result =>
    rw [stepCost, workLeft_of_word hn hpc, htop]
    rw [NextByTable, hn] at ht
    cases n with
    | zero =>
      rw [if_pos rfl] at ht
      obtain ⟨-, hzero, -⟩ := ht
      rw [workLeft_of_depth_zero hzero]
      omega
    | succ n =>
      rw [if_neg (by omega)] at ht
      obtain ⟨-, hdown, hadv⟩ := ht
      obtain ⟨-, -, -, hcall, -⟩ := hs
      obtain ⟨caller, hcaller, -⟩ := suspendedInCall_iff.1 (hcall n (by omega))
      rw [workLeft_of_advanced hc hcfg (by omega) (pc_lt_of_codeWord hcaller) hadv, wordsAfter_succ (n + 1)]
      omega

/-- An instruction pays for the CALL it counts as. -/
theorem calls_count_le (w : Nat → Nat) (s : State) (n : Tally) (i : Instr) :
    (n.count (some i)).calls ≤ n.calls + stepCost w s i := by
  cases i <;> simp [Tally.count, stepCost]

theorem top_lt_maxDepth {s : State} (h : StackInv s) (hd : 0 < s.depth) : s.top < s.cfg.image.maxDepth :=
  (Nat.sub_one_lt_of_lt hd).trans_le h.1

/-- An instruction pays for the step it takes. -/
theorem stepCost_pos {s : State} (hd : s.top < s.cfg.image.maxDepth) (i : Instr) :
    0 < stepCost (stepsPerWord s.cfg) s i := by
  have hpos := stepsPerWord_pos hd
  cases i <;> simp [stepCost, hpos]

/-- An accepted start request brings the work of a whole frame at level 0, or none (50_host_interface R153, R154). -/
theorem workLeft_startRequest_le (w : Nat → Nat) {s : State} (hr : s.status ≠ .running) (e : MethodIdx) (a : Value) :
    workLeft w (s.startRequest e a) ≤ maxCodeLen s.cfg * w 0 := by
  obtain ⟨hrun, -⟩ | ⟨-, -, h⟩ | ⟨-, -, h⟩ := startRequest_cases s e a
  · exact absurd hrun hr
  · rw [h, workLeft_of_depth_zero rfl]
    exact Nat.zero_le _
  · have hroot : (s.startRun e a).frameAt 0 = _ := pushFrame_frameAt_depth (s := s.clearForStart) (v := a)
    rw [h, workLeft_of_depth_succ (n := 0) rfl, hroot]
    simp [wordsAfter]

/-! ### Runs that the host leaves alone -/

section
variable {s : State} (h : RunInv s) (hin : s.inputs = [])
include h hin

/-- With no host event left, the engine steps while it is Running and nothing changes after that (40_dispatch R97). -/
theorem step_of_no_events : step s = if s.status = .running then engineStep s else .next s := by
  rw [step_quiet h.1 (by rw [hostQuiet, hin]), hin, List.tail_nil, ← hin, setInputs_same]

theorem step_of_not_running (hr : s.status ≠ .running) : step s = .next s :=
  (step_of_no_events h hin).trans (if_neg hr)

theorem step_of_running (hr : s.status = .running) :
    (∃ c, step s = .next (s.enterFault c)) ∨ ∃ i t, executing s = some i ∧ step s = .next t ∧ Completes s t i := by
  rw [step_of_no_events h hin, if_pos hr]
  exact engineStep_of_runInv h hr

end

theorem runLoop_of_not_running {s : State} (hr : s.status ≠ .running) (k : Nat) : runLoop k s = some s := by
  cases k with
  | zero => rfl
  | succ k => exact if_neg hr

theorem runLoop_succ {s t : State} (hr : s.status = .running) (hstep : step s = .next t) (k : Nat) :
    runLoop (k + 1) s = runLoop k t := by
  rw [runLoop, if_pos hr, hstep]

/-- A run leaves Running within one step more than the work left, that step being one that faults. -/
theorem runLoop_ends {s : State} {k : Nat} (h : RunInv s) (hin : s.inputs = [])
    (hk : workLeft (stepsPerWord s.cfg) s < k) : ∃ t, runLoop k s = some t ∧ t.status ≠ .running := by
  induction k generalizing s with
  | zero => exact absurd hk (Nat.not_lt_zero _)
  | succ k ih =>
    by_cases hr : s.status = .running
    · obtain ⟨c, hstep⟩ | ⟨i, t, hi, hstep, hcomp⟩ := step_of_running h hin hr
      · rw [runLoop_succ hr hstep]
        exact ⟨_, runLoop_of_not_running (by simp) k, by simp⟩
      · rw [runLoop_succ hr hstep]
        have ⟨hc, hst, hstack, _⟩ := h
        have hpaid := hcomp.workLeft_add_stepCost_le hi hc (hstack hr) (stepsPerWord_coversCall _)
        have hpos := stepCost_pos (top_lt_maxDepth (hstack hr) (hst.1 hr)) i
        obtain ⟨hcfg, -, hinputs⟩ := hcomp.keeps
        exact ih (stepKeepsRunInv.2 s t h hstep) (hinputs.trans hin) (by rw [hcfg]; omega)
    · exact ⟨s, runLoop_of_not_running hr _, hr⟩

/-- Over steps without a fault the work left pays for every CALL that completes. -/
theorem tally_calls_le {w : Nat → Nat} {s t : State} {k : Nat} {n n' : Tally} (h : RunInv s) (hin : s.inputs = [])
    (hw : CoversCall s.cfg w) (htally : tally k s n = some (n', t)) : n'.calls ≤ n.calls + workLeft w s := by
  induction k generalizing s n with
  | zero =>
    cases htally
    exact Nat.le_add_right ..
  | succ k ih =>
    rw [tally] at htally
    by_cases hr : s.status = .running
    · obtain ⟨c, hstep⟩ | ⟨i, u, hi, hstep, hcomp⟩ := step_of_running h hin hr
      · simp [hstep] at htally
      · simp only [hstep, hi] at htally
        split at htally
        · cases htally
        · have ⟨hc, _, hstack, _⟩ := h
          obtain ⟨hcfg, -, hinputs⟩ := hcomp.keeps
          have hpaid := hcomp.workLeft_add_stepCost_le hi hc (hstack hr) hw
          have hcount := calls_count_le w s n i
          have hrest := ih (stepKeepsRunInv.2 s u h hstep) (hinputs.trans hin) (hcfg ▸ hw) htally
          omega
    · have hidle : executing s = none := if_neg hr
      simp only [step_of_not_running h hin hr, hidle] at htally
      split at htally
      · cases htally
      · exact ih h hin hw htally

/-! ### Runs from a start request -/

theorem startRequest_runInv {s : State} (h : RunInv s) (e : MethodIdx) (a : Value) : RunInv (s.startRequest e a) := by
  obtain ⟨hcore, hstack⟩ := runInv_iff.1 h
  exact runInv_iff.2 ⟨startRequest_coreInv e a hcore, fun _ => startRequest_stackInv e a hcore.1 hstack⟩

theorem startRequest_inputs (s : State) (e : MethodIdx) (a : Value) : (s.startRequest e a).inputs = s.inputs := by
  obtain ⟨-, h⟩ | ⟨-, -, h⟩ | ⟨-, -, h⟩ := startRequest_cases s e a <;> rw [h] <;> rfl

theorem run_of_runLoop {s t : State} {e : MethodIdx} {a : Value}
    (h : runLoop (runBound s.cfg) ((s.setInputs []).startRequest e a) = some t) : run s e a = t.runOutcome := by
  rw [State.setInputs] at h
  rw [run, h]

/-- The root frame and the frames its words create. -/
theorem frameBound_eq {c : Config} (hc : c.Wf) : frameBound c = 1 + maxCodeLen c * framesPerWord c 0 := by
  have hdepth : 1 ≤ c.image.maxDepth := hc.2.1
  rw [frameBound, framesPerWord, ← powerSum_succ, Nat.sub_zero, Nat.sub_add_cancel hdepth]

/-- Settles O55: `runLoop_ends` for a start request's run and for any other, `tally_calls_le` for the frames, both from
the work of an accepted start request. -/
theorem everyRunEnds : Obligations.EveryRunEnds := by
  refine ⟨fun s e a h hr => ?started, fun s t e a k n h hr htally => ?frames, fun s h hin _ => ?running⟩
  case started =>
    have hcfg := (startRequest_keeps (s.setInputs []) e a).1
    have hwork := workLeft_startRequest_le (stepsPerWord s.cfg) (s := s.setInputs []) hr e a
    obtain ⟨t, hloop, ht⟩ := runLoop_ends (startRequest_runInv (s := s.setInputs []) h e a) (startRequest_inputs _ e a)
      (k := runBound s.cfg) (by rw [hcfg]; exact Nat.lt_succ_of_le hwork)
    exact ⟨t, hloop, ht, run_of_runLoop hloop⟩
  case frames =>
    have hcfg := (startRequest_keeps (s.setInputs []) e a).1
    have hcalls := tally_calls_le (startRequest_runInv (s := s.setInputs []) h e a) (startRequest_inputs _ e a)
      (w := framesPerWord s.cfg) (hcfg ▸ framesPerWord_coversCall s.cfg) htally
    have hwork := workLeft_startRequest_le (framesPerWord s.cfg) (s := s.setInputs []) hr e a
    rw [Nat.zero_add] at hcalls
    rw [frameBound_eq h.1, Nat.add_comm]
    exact Nat.add_le_add_left (hcalls.trans hwork) 1
  case running =>
    obtain ⟨t, hloop, ht⟩ := runLoop_ends h hin (Nat.lt_succ_self _)
    exact ⟨_, t, hloop, ht⟩

end Sys2Proof.Machine
end

section
/-!
Data movement (41_data_movement): what MOVE and LITERAL answer in a ready frame, and what the write to one register and
the advance that both end in change and leave alone.
-/

namespace Sys2Proof.Machine

/-! ### A register write followed by the advance -/

section
variable (s : State) (i x : RegIdx) (v : Value)

/-- The registers of one frame lie in different slots (10_state R15). -/
theorem slotOf_inj_same_level (l : Nat) : s.slotOf l i = s.slotOf l x ↔ i = x :=
  Nat.add_left_cancel_iff.trans BitVec.toNat_inj

theorem writeReg_advance_slot (k : Nat) :
    (s.writeReg i v).advance.slot k = if k = s.slotOf (s.depth - 1) i then v else s.slot k :=
  setReg_slot s (s.depth - 1) k i v

theorem writeReg_advance_reg :
    (s.writeReg i v).advance.reg (s.depth - 1) x = if x = i then v else s.reg (s.depth - 1) x := by
  have hslot : (s.writeReg i v).reg (s.depth - 1) x =
      if s.slotOf (s.depth - 1) x = s.slotOf (s.depth - 1) i then v else s.reg (s.depth - 1) x :=
    setReg_slot s (s.depth - 1) (s.slotOf (s.depth - 1) x) i v
  rw [advance_reg, hslot]
  simp only [slotOf_inj_same_level]

theorem writeReg_advance_reg_same : (s.writeReg i v).advance.reg (s.depth - 1) i = v := by
  rw [writeReg_advance_reg, if_pos rfl]

/-- Everything but the written register and the current program counter is the same. -/
theorem writeReg_advance_frame :
    SameArenaBut s (s.writeReg i v).advance (s.slotOf (s.depth - 1) i) ∧
      OnlyPcAdvances s (s.writeReg i v).advance (s.depth - 1) ∧ SameControl s (s.writeReg i v).advance ∧
      (s.writeReg i v).advance.debugTrace = s.debugTrace :=
  ⟨fun k hk => by rw [writeReg_advance_slot, if_neg hk],
    onlyPcAdvances_of_frameAt (advance_frameAt (s.writeReg i v)), ⟨rfl, rfl, rfl, rfl, rfl, rfl⟩, rfl⟩

theorem writeReg_advance_pc :
    ((s.writeReg i v).advance.frameAt (s.depth - 1)).pc = (s.frameAt (s.depth - 1)).pc + 1 := by
  obtain ⟨-, ⟨-, hpc, -⟩, -⟩ := writeReg_advance_frame s i v
  exact hpc

/-- Writing a register the Value it holds changes no slot. -/
theorem writeReg_advance_sameArena (hv : s.reg (s.depth - 1) i = v) : SameArena s (s.writeReg i v).advance := by
  intro k
  rw [writeReg_advance_slot]
  split
  · next hk => rw [hk, ← hv, State.reg]
  · rfl

/-- The current frame is still ready: its method and its window are the same. -/
theorem currentReady_writeReg_advance {n : Nat} (h : CurrentReady s n) : CurrentReady (s.writeReg i v).advance n := by
  obtain ⟨hd, hm, hn, hw⟩ := h
  refine ⟨hd, ?_, ?_, ?_⟩
  · simpa using hm
  · rw [advance_regsAt]
    exact hn
  · simpa using hw

/-- MOVE's copy leaves the source's Value in both registers (41_data_movement R110). -/
theorem copy_advance_reg (src dst : RegIdx) :
    (s.writeReg dst (s.readReg src)).advance.reg (s.depth - 1) dst = s.reg (s.depth - 1) src ∧
      (s.writeReg dst (s.readReg src)).advance.reg (s.depth - 1) src = s.reg (s.depth - 1) src := by
  have hread : s.readReg src = s.reg (s.depth - 1) src := rfl
  simp only [writeReg_advance_reg, hread, if_true, ite_self, and_self]

end

/-! ### The instructions in a ready frame -/

theorem poolOperand_eq_none {s : State} {k : PoolIdx} :
    s.poolOperand k = none ↔ poolLen s.cfg (s.frameAt (s.depth - 1)).method ≤ k.toNat :=
  List.getElem?_eq_none_iff

/-- An index below PoolLen has its entry (20_memory R44). -/
theorem exists_poolOperand {s : State} {k : PoolIdx} (hk : k.toNat < poolLen s.cfg (s.frameAt (s.depth - 1)).method) :
    ∃ v, s.poolOperand k = some v :=
  Option.isSome_iff_exists.1 (poolEntry_isSome.2 hk)

section
variable {s : State} {n : Nat} (h : CurrentReady s n)
include h

theorem regOutside_eq_true_of_ready {i : RegIdx} : s.regOutside i = true ↔ n ≤ i.toNat := by
  obtain ⟨-, -, hn, -⟩ := h
  rw [regOutside_eq_true, State.top, hn]

theorem exec_move_of_lt {a b : RegIdx} (ha : a.toNat < n) (hb : b.toNat < n) :
    exec (.move a b) s = .next (s.writeReg b (s.readReg a)).advance := by
  rw [exec, execMove, inCurrentFrame_of_ready h, if_neg]
  simp [regOutside_eq_true_of_ready h, ha, hb]

theorem exec_move_of_not_lt {a b : RegIdx} (hab : ¬ (a.toNat < n ∧ b.toNat < n)) :
    exec (.move a b) s = .next (s.enterFault .registerOutOfBounds) := by
  rw [exec, execMove, inCurrentFrame_of_ready h, if_pos, raise]
  rw [Bool.or_eq_true, regOutside_eq_true_of_ready h, regOutside_eq_true_of_ready h]
  omega

theorem exec_literal_of_le {k : PoolIdx} {d : RegIdx} (hd : n ≤ d.toNat) :
    exec (.literal k d) s = .next (s.enterFault .registerOutOfBounds) := by
  rw [exec, execLiteral, inCurrentFrame_of_ready h, if_pos ((regOutside_eq_true_of_ready h).2 hd), raise]

variable {k : PoolIdx} {d : RegIdx} (hd : d.toNat < n)
include hd

theorem exec_literal_of_no_entry (hk : s.poolOperand k = none) :
    exec (.literal k d) s = .next (s.enterFault .constantIndexOutOfBounds) := by
  rw [exec, execLiteral, inCurrentFrame_of_ready h, if_neg (mt (regOutside_eq_true_of_ready h).1 hd.not_ge), hk, raise]

theorem exec_literal_of_entry {v : Value} (hv : s.poolOperand k = some v) :
    exec (.literal k d) s = .next (s.writeReg d v).advance := by
  rw [exec, execLiteral, inCurrentFrame_of_ready h, if_neg (mt (regOutside_eq_true_of_ready h).1 hd.not_ge), hv]

end

/-! ### The statements -/

/-- Settles O10: `copy_advance_reg` for the two registers, `writeReg_advance_frame` for the rest of the state. -/
theorem moveFollowsItsRule : Obligations.MoveFollowsItsRule := by
  refine ⟨fun c a b x hm => ⟨by simp [decode_of_move], ?line⟩, fun s n a b h => ?effect⟩
  case line => exact assemble_of_writesInstr _ (i := .move a b) ⟨rfl, _, _, rfl, .inr rfl, .inr rfl⟩
  case effect =>
    split
    · next hab =>
      obtain ⟨hdst, hsrc⟩ := copy_advance_reg s a b
      exact ⟨_, exec_move_of_lt h hab.1 hab.2, hdst, hsrc, writeReg_advance_frame s b _⟩
    · next hab => exact ⟨_, exec_move_of_not_lt h hab, onlyFaultEntry_enterFault s _⟩

/-- Settles O11: the second execution writes a register the Value it holds. -/
theorem moveTwiceIsMoveOnce : Obligations.MoveTwiceIsMoveOnce := by
  intro s n a b h ha hb
  obtain ⟨hdst, hsrc⟩ := copy_advance_reg s a b
  have hready := currentReady_writeReg_advance s b (s.readReg a) h
  exact ⟨_, _, exec_move_of_lt h ha hb, exec_move_of_lt hready ha hb,
    writeReg_advance_sameArena _ b _ (hdst.trans hsrc.symm)⟩

/-- Settles O12: one case for each fault, and `writeReg_advance_frame` where neither's condition holds. -/
theorem literalFollowsItsRule : Obligations.LiteralFollowsItsRule := by
  refine ⟨fun c ax x hm => ⟨decode_encode hm (i := .literal ax x) rfl, ?line⟩, fun s n k d h => ?effect⟩
  case line => exact assemble_of_writesInstr _ (i := .literal ax x) ⟨rfl, _, rfl, .inr rfl⟩
  case effect =>
    split_ifs with hd hk
    · exact ⟨_, exec_literal_of_le h hd, onlyFaultEntry_enterFault s _⟩
    · exact ⟨_, exec_literal_of_no_entry h (not_le.1 hd) (poolOperand_eq_none.2 hk), onlyFaultEntry_enterFault s _⟩
    · obtain ⟨v, hv⟩ := exists_poolOperand (not_le.1 hk)
      have hdest := writeReg_advance_reg_same s d v
      exact ⟨_, exec_literal_of_entry h (not_le.1 hd) hv, (congrArg some hdest).trans hv.symm,
        writeReg_advance_frame s d v⟩

/-- Settles O13: LITERAL leaves the entry in `dest`, and `copy_advance_reg` gives both registers after MOVE. -/
theorem literalThenMove : Obligations.LiteralThenMove := by
  intro s n k d x h hd hx hk
  obtain ⟨v, hv⟩ := exists_poolOperand hk
  have hdest := writeReg_advance_reg_same s d v
  have hready := currentReady_writeReg_advance s d v h
  obtain ⟨hcopy, hkept⟩ := copy_advance_reg (s.writeReg d v).advance d x
  refine ⟨_, _, exec_literal_of_entry h hd hv, exec_move_of_lt hready hd hx, ?copied, ?kept, ?pc⟩
  case copied => exact (congrArg some (hcopy.trans hdest)).trans hv.symm
  case kept => exact (congrArg some (hkept.trans hdest)).trans hv.symm
  case pc =>
    calc _ = ((s.writeReg d v).advance.frameAt (s.depth - 1)).pc + 1 := writeReg_advance_pc _ x _
      _ = (s.frameAt (s.depth - 1)).pc + 2 := by rw [writeReg_advance_pc, add_assoc]; rfl

end Sys2Proof.Machine
end

section
/-!
CALL and RETURN (42_call_return): frame creation and delivery, what the two instructions answer under the stack
invariant, and what holds over steps that the host leaves alone.
-/

namespace Sys2Proof.Machine

/-! ### Frame creation -/

section
variable (s : State) (m : MethodIdx) (r : RegIdx) (v : Value)

/-- The new frame's base above a caller is the end of the caller's window (42_call_return R122). -/
theorem newBase_of_pos (hd : 0 < s.depth) :
    s.newBase = (s.frameAt (s.depth - 1)).wbase + s.regsAt (s.depth - 1) :=
  if_neg (Nat.ne_of_gt hd)

theorem pushFrame_slot_newBase (hm : 0 < regCount s.cfg m) : (s.pushFrame m r v).slot s.newBase = v := by
  rw [pushFrame_slot, if_pos ⟨rfl, hm⟩]

theorem pushFrame_slot_of_pos {i : Nat} (h0 : 0 < i) (hi : i < regCount s.cfg m) :
    (s.pushFrame m r v).slot (s.newBase + i) = Value.nil := by
  rw [pushFrame_slot, if_neg (by omega), if_pos (by omega)]

theorem pushFrame_slot_outside {k : Nat} (hk : k < s.newBase ∨ s.newBase + regCount s.cfg m ≤ k) :
    (s.pushFrame m r v).slot k = s.slot k := by
  rw [pushFrame_slot, if_neg (by omega), if_neg (by omega)]

theorem pushFrame_frameAt_of_ne {l : Nat} (hl : l ≠ s.depth) : (s.pushFrame m r v).frameAt l = s.frameAt l := by
  rw [pushFrame_frameAt, if_neg hl]

/-- The registers of the new frame are the slots from its base on (10_state R15). -/
theorem pushFrame_reg_depth (i : RegIdx) :
    (s.pushFrame m r v).reg s.depth i = (s.pushFrame m r v).slot (s.newBase + i.toNat) := by
  rw [State.reg, State.slotOf, pushFrame_frameAt_depth]

end

/-- Settles O15: the base named there is `newBase`. -/
theorem frameCreation : Obligations.FrameCreation :=
  fun s m r v => ⟨pushFrame_frameAt_depth, pushFrame_slot_newBase s m r v, fun _ => pushFrame_slot_of_pos s m r v,
    fun _ => pushFrame_slot_outside s m r v, fun _ => pushFrame_frameAt_of_ne s m r v,
    rfl, rfl, rfl, rfl, rfl, rfl, rfl⟩

/-! ### What an instruction answers by its fault condition -/

section
variable {s : State} (hc : s.cfg.Wf) (h : StackInv s) (hd : 0 < s.depth) {i : Instr}
include hc h hd

theorem exec_of_executeFault_some {c : Cause} (hi : executeFault s i = some c) :
    ∃ t, exec i s = .next t ∧ OnlyFaultEntry s t c := by
  obtain ⟨c', hc', hexec⟩ | ⟨hnone, -⟩ := exec_follows_executeFault hc h hd i
  · obtain rfl : c = c' := Option.some.inj (hi.symm.trans hc')
    exact ⟨_, hexec, onlyFaultEntry_enterFault s c⟩
  · simp [hi] at hnone

theorem exec_of_executeFault_none (hi : executeFault s i = none) : ∃ t, exec i s = .next t ∧ Completes s t i := by
  obtain ⟨c, hc', -⟩ | ⟨-, hexec⟩ := exec_follows_executeFault hc h hd i
  · simp [hi] at hc'
  · exact hexec

end

/-- CALL's three faults in order (42_call_return R121), as conditions on its operands. -/
theorem executeFault_call_eq (s : State) (a : RegIdx) (m : MethodIdx) (r : RegIdx) :
    executeFault s (.call a m r) =
      if s.regsAt (s.depth - 1) ≤ a.toNat ∨ s.regsAt (s.depth - 1) ≤ r.toNat then some .registerOutOfBounds
      else if methodCount s.cfg ≤ m.toNat then some .methodIndexOutOfBounds
      else if s.depth = s.cfg.image.maxDepth then some .stackOverflow else none := by
  simp [executeFault, registerOperands, poolOperands, methodOperands]

/-- RETURN's fault (42_call_return R125), as a condition on its operand. -/
theorem executeFault_ret_eq (s : State) (a : RegIdx) :
    executeFault s (.ret a) = if s.regsAt (s.depth - 1) ≤ a.toNat then some .registerOutOfBounds else none := by
  simp [executeFault, registerOperands, poolOperands, methodOperands]

/-! ### CALL -/

/-- Settles O14: one case for each fault, and the facts on `pushFrame` where no fault's condition holds. -/
theorem callFollowsItsRule : Obligations.CallFollowsItsRule := by
  refine ⟨fun c a m r hm => ⟨decode_encode hm (i := .call a m r) rfl, ?line⟩, fun s a m r hc h hd => ?effect⟩
  case line => exact assemble_of_writesInstr _ (i := .call a m r) ⟨rfl, _, _, rfl, .inr rfl, .inr rfl⟩
  case effect =>
    have hfault := executeFault_call_eq s a m r
    split_ifs at hfault ⊢ with hreg hm hfull
    · exact exec_of_executeFault_some hc h hd hfault
    · exact exec_of_executeFault_some hc h hd hfault
    · exact exec_of_executeFault_some hc h hd hfault
    · obtain ⟨t, hexec, -, -, -, -, -, rfl⟩ := exec_of_executeFault_none hc h hd hfault
      have hrecord := pushFrame_frameAt_depth (s := s) (m := m) (r := r) (v := s.readReg a)
      refine ⟨_, hexec, rfl, ?record, fun hm => ?arg, fun j h0 hj => ?others, fun k hk => ?outside,
        fun _ => pushFrame_frameAt_of_ne s m r _, rfl, rfl, rfl, rfl, rfl, rfl⟩
      case record => rw [hrecord, newBase_of_pos s hd]
      case arg => exact (pushFrame_reg_depth s m r _ 0).trans (pushFrame_slot_newBase s m r _ hm)
      case others => exact (pushFrame_reg_depth s m r _ j).trans (pushFrame_slot_of_pos s m r _ h0 hj)
      case outside =>
        rw [hrecord] at hk
        exact pushFrame_slot_outside s m r _ hk

/-! ### RETURN -/

theorem exec_ret_root {s : State} {n : Nat} {a : RegIdx} (h : CurrentReady s n) (h1 : s.depth = 1)
    (ha : a.toNat < n) : exec (.ret a) s = .next (s.halt (s.reg 0 a)) := by
  have hread : s.readReg a = s.reg 0 a := congrArg (fun d => s.reg (d - 1) a) h1
  rw [exec, execRet, inCurrentFrame_of_ready h, if_neg (mt (regOutside_eq_true_of_ready h).1 ha.not_ge),
    if_pos (by simp [isRoot, h1]), hread]

/-- Settles O17. -/
theorem returnFromRootHalts : Obligations.ReturnFromRootHalts :=
  fun _ _ _ h h1 ha => ⟨_, exec_ret_root h h1 ha, rfl, rfl, rfl, rfl, rfl, rfl, rfl, rfl, rfl, rfl, rfl⟩

/-- The caller-target register holds the delivered Value (42_call_return R126). -/
theorem afterDeliver_reg_target (s : State) (v : Value) :
    (s.afterDeliver v).reg (s.depth - 2) s.current.ret = v :=
  (afterDeliver_reg s v _ _).trans ((setReg_slot s _ _ _ v).trans (if_pos rfl))

theorem afterDeliver_sameArenaBut (s : State) (v : Value) :
    SameArenaBut s (s.afterDeliver v) (s.slotOf (s.depth - 2) s.current.ret) :=
  fun k hk => (afterDeliver_slot s v k).trans (if_neg hk)

theorem afterDeliver_onlyPcAdvances (s : State) (v : Value) : OnlyPcAdvances s (s.afterDeliver v) (s.depth - 2) :=
  onlyPcAdvances_of_frameAt (afterDeliver_frameAt s v)

/-- Settles O16: the fault, the halt by `exec_ret_root`, and the delivery where there is a caller. -/
theorem returnFollowsItsRule : Obligations.ReturnFollowsItsRule := by
  refine ⟨fun c a x y hm => ⟨by simp [decode_of_ret hm], ?line⟩, fun s a hc h hd => ?effect⟩
  case line => exact assemble_of_writesInstr _ (i := .ret a) ⟨rfl, _, rfl, .inr rfl⟩
  case effect =>
    have hfault := executeFault_ret_eq s a
    split_ifs at hfault ⊢ with ha h1
    · exact exec_of_executeFault_some hc h hd hfault
    · have hhalt := exec_ret_root (currentReady_of_stackInv hc h hd) h1 (not_le.1 ha)
      exact ⟨_, hhalt, rfl, rfl, rfl, rfl, rfl, rfl, rfl, rfl, rfl⟩
    · obtain ⟨t, hexec, -, ⟨hroot, -⟩ | ⟨-, -, -, rfl⟩⟩ := exec_of_executeFault_none hc h hd hfault
      · exact absurd hroot h1
      · exact ⟨_, hexec, rfl, afterDeliver_reg_target s _, afterDeliver_sameArenaBut s _,
          afterDeliver_onlyPcAdvances s _, rfl, rfl, rfl, rfl, rfl, rfl⟩

/-! ### Steps that the host leaves alone -/

/-- What such a step can do: nothing, enter a fault, or complete an instruction (40_dispatch R96, R97). -/
theorem step_no_events_next {s t : State} (h : RunInv s) (hin : s.inputs = []) (hstep : step s = .next t) :
    (s.status ≠ .running ∧ t = s) ∨ (∃ c, t = s.enterFault c) ∨ ∃ i, executing s = some i ∧ Completes s t i := by
  rw [step_of_no_events h hin] at hstep
  split at hstep
  · next hr =>
    obtain ⟨-, ⟨c, -, ht⟩ | hcomp⟩ := engineStep_running hstep hr
    · exact .inr (.inl ⟨c, ht⟩)
    · exact .inr (.inr hcomp)
  · next hr =>
    cases hstep
    exact .inl ⟨hr, rfl⟩

/-- The host still leaves the core alone after the step. -/
theorem step_no_events_inputs {s t : State} (h : RunInv s) (hin : s.inputs = []) (hstep : step s = .next t) :
    t.inputs = [] := by
  obtain ⟨-, rfl⟩ | ⟨c, rfl⟩ | ⟨i, -, hcomp⟩ := step_no_events_next h hin hstep
  · exact hin
  · exact hin
  · exact hcomp.keeps.2.2.trans hin

/-! ### Suspended frames inside a call -/

/-- The frame at level `l` is the same: its register count, its record and its registers. -/
structure SameFrame (s t : State) (l : Nat) : Prop where
  cfg : t.cfg = s.cfg
  record : t.frameAt l = s.frameAt l
  regs : ∀ i : RegIdx, i.toNat < s.regsAt l → t.reg l i = s.reg l i

theorem SameFrame.refl (s : State) (l : Nat) : SameFrame s s l := ⟨rfl, rfl, fun _ _ => rfl⟩

theorem SameFrame.regsAt {s t : State} {l : Nat} (h : SameFrame s t l) : t.regsAt l = s.regsAt l := by
  rw [State.regsAt, h.cfg, h.record, State.regsAt]

theorem SameFrame.trans {s t u : State} {l : Nat} (h : SameFrame s t l) (h' : SameFrame t u l) : SameFrame s u l :=
  ⟨h'.cfg.trans h.cfg, h'.record.trans h.record,
    fun i hi => (h'.regs i (h.regsAt.symm ▸ hi)).trans (h.regs i hi)⟩

/-- An instruction writes no record below the current frame, but that RETURN advances the frame it returns to. -/
theorem Completes.suspended_record {s t : State} {i : Instr} (h : Completes s t i) (hr : s.status = .running)
    (hd : 0 < s.depth) {l : Nat} (hl : l < s.depth - 1) (hl' : l < t.depth - 1) : t.frameAt l = s.frameAt l := by
  have ht := h.nextByTable hr hd
  have below {k : Nat} (hk : l < k) (hadv : OnlyPcAdvances s t k) : t.frameAt l = s.frameAt l := by
    obtain ⟨-, -, -, -, hothers⟩ := hadv
    exact hothers l hk.ne
  cases i with
  | move src dst => exact below hl ht.2.2
  | literal index dest => exact below hl ht.2.2
  | hackPrint reg => exact below hl ht.2.2
  | call arg method result =>
    obtain ⟨-, -, -, hothers⟩ := ht
    exact hothers l (by omega)
  | ret result =>
    rw [NextByTable, if_neg (by omega)] at ht
    obtain ⟨-, hdown, hadv⟩ := ht
    exact below (by omega) hadv

/-- A frame that is suspended before and after an instruction is the same (42_call_return R123, R124). -/
theorem Completes.sameFrame {s t : State} {i : Instr} (h : Completes s t i) (hi : executing s = some i)
    (hs : StackInv s) {l : Nat} (hl : l < s.depth - 1) (hl' : l < t.depth - 1) : SameFrame s t l := by
  obtain ⟨hr, hd, -⟩ := executing_eq_some.1 hi
  refine ⟨h.keeps.1, h.suspended_record hr hd hl hl', fun x hx => ?_⟩
  obtain hsame | ⟨hlevel, -, hdown, -⟩ := h.suspended_reg hs hl hx
  · exact hsame
  · omega

/-- A frame that is suspended before and after a step is the same. -/
theorem step_sameFrame {s t : State} (h : RunInv s) (hin : s.inputs = []) (hstep : step s = .next t) {l : Nat}
    (hl : l < s.depth - 1) (hl' : l < t.depth - 1) : SameFrame s t l := by
  obtain ⟨-, rfl⟩ | ⟨c, rfl⟩ | ⟨i, hi, hcomp⟩ := step_no_events_next h hin hstep
  · exact SameFrame.refl t l
  · exact ⟨rfl, rfl, fun _ _ => rfl⟩
  · obtain ⟨hr, -⟩ := executing_eq_some.1 hi
    obtain ⟨-, hstack⟩ := runInv_iff.1 h
    exact hcomp.sameFrame hi (hstack hr) hl hl'

theorem le_depth_of_stepsAbove {d k : Nat} {s t : State} (h : stepsAbove d k s = some t) : d ≤ s.depth := by
  by_contra hd
  cases k <;> simp [stepsAbove, hd] at h

theorem stepsAbove_succ {d k : Nat} {s t : State} (h : stepsAbove d (k + 1) s = some t) :
    ∃ u, step s = .next u ∧ stepsAbove d k u = some t := by
  have hd := le_depth_of_stepsAbove h
  rw [stepsAbove, if_pos hd] at h
  split at h
  · next u hu => exact ⟨u, hu, h⟩
  · cases h
  · cases h

/-- Over steps on a stack of at least `d` frames, every frame below the level `d - 1` is the same. -/
theorem stepsAbove_sameFrame {d k : Nat} {s t : State} (h : RunInv s) (hin : s.inputs = [])
    (hsteps : stepsAbove d k s = some t) {l : Nat} (hl : l < d - 1) : SameFrame s t l := by
  induction k generalizing s with
  | zero =>
    have hd := le_depth_of_stepsAbove hsteps
    rw [stepsAbove, if_pos hd] at hsteps
    cases hsteps
    exact SameFrame.refl t l
  | succ k ih =>
    obtain ⟨u, hstep, hrest⟩ := stepsAbove_succ hsteps
    have hs := le_depth_of_stepsAbove hsteps
    have hu := le_depth_of_stepsAbove hrest
    exact (step_sameFrame h hin hstep (by omega) (by omega)).trans
      (ih (stepKeepsRunInv.2 s u h hstep) (step_no_events_inputs h hin hstep) hrest)

/-- Settles O56: `stepsAbove_sameFrame`, the level `d - 1` being that of the frame current at the start. -/
theorem callersUntouchedInsideCall : Obligations.CallersUntouchedInsideCall := by
  intro s t k h hin _ hsteps l hl
  have hsame := stepsAbove_sameFrame h hin hsteps hl
  exact ⟨hsame.record, hsame.regs⟩

/-! ### Call/return balance -/

/-- DEPTH moves by what the instruction adds to the two counts (42_call_return R128). -/
theorem Completes.depth_balance {s t : State} {i : Instr} (h : Completes s t i) (hr : s.status = .running)
    (hd : 0 < s.depth) (n : Tally) :
    t.depth + (n.count (some i)).returns + n.calls = s.depth + (n.count (some i)).calls + n.returns := by
  have ht := h.nextByTable hr hd
  have same (hdepth : t.depth = s.depth) : t.depth + n.returns + n.calls = s.depth + n.calls + n.returns := by omega
  cases i with
  | move src dst => exact same ht.2.1
  | literal index dest => exact same ht.2.1
  | hackPrint reg => exact same ht.2.1
  | call arg method result =>
    obtain ⟨-, hup, -⟩ := ht
    simp only [Tally.count]
    omega
  | ret result =>
    have hdown : t.depth + 1 = s.depth := by
      rw [NextByTable] at ht
      split at ht
      · next h1 => rw [ht.2.1, h1]
      · exact ht.2.1
    simp only [Tally.count]
    omega

/-- A step that raises no fault, or changes nothing, keeps the balance. -/
theorem step_depth_balance {s t : State} (h : RunInv s) (hin : s.inputs = []) (hstep : step s = .next t)
    (ht : t.status ≠ .faulted) (n : Tally) :
    t.depth + (n.count (executing s)).returns + n.calls = s.depth + (n.count (executing s)).calls + n.returns := by
  obtain ⟨hr, rfl⟩ | ⟨c, rfl⟩ | ⟨i, hi, hcomp⟩ := step_no_events_next h hin hstep
  · have hidle : executing t = none := if_neg hr
    rw [hidle, Tally.count]
    omega
  · exact absurd rfl ht
  · obtain ⟨hr, hd, -⟩ := executing_eq_some.1 hi
    rw [hi]
    exact hcomp.depth_balance hr hd n

theorem tally_succ {k : Nat} {s t : State} {n n' : Tally} (h : tally (k + 1) s n = some (n', t)) :
    ∃ u, step s = .next u ∧ u.status ≠ .faulted ∧ tally k u (n.count (executing s)) = some (n', t) := by
  rw [tally] at h
  split at h
  · next u hu =>
    split at h
    · cases h
    · next hf => exact ⟨u, hu, hf, h⟩
  · cases h
  · cases h

theorem tally_runInv {k : Nat} {s t : State} {n n' : Tally} (h : RunInv s) (htally : tally k s n = some (n', t)) :
    RunInv t := by
  induction k generalizing s n with
  | zero =>
    cases htally
    exact h
  | succ k ih =>
    obtain ⟨u, hstep, -, hrest⟩ := tally_succ htally
    exact ih (stepKeepsRunInv.2 s u h hstep) hrest

/-- DEPTH moves by the CALLs less the RETURNs that are counted from any tally on. -/
theorem tally_depth_balance {k : Nat} {s t : State} {n n' : Tally} (h : RunInv s) (hin : s.inputs = [])
    (htally : tally k s n = some (n', t)) :
    t.depth + n'.returns + n.calls = s.depth + n'.calls + n.returns := by
  induction k generalizing s n with
  | zero =>
    cases htally
    omega
  | succ k ih =>
    obtain ⟨u, hstep, hu, hrest⟩ := tally_succ htally
    have hfirst := step_depth_balance h hin hstep hu n
    have hothers := ih (stepKeepsRunInv.2 s u h hstep) (step_no_events_inputs h hin hstep) hrest
    omega

/-- Settles O54: `tally_depth_balance` from the zero tally; a run begins with DEPTH 1, and Halted has DEPTH 0. -/
theorem callReturnBalance : Obligations.CallReturnBalance := by
  refine ⟨fun s t k n h hin htally => tally_depth_balance h hin htally,
    fun s t e a k n h hin hr he htally hhalted => ?run⟩
  case run =>
    have hstart := startRequest_runInv h e a
    have hbalance : t.depth + n.returns = (s.startRequest e a).depth + n.calls :=
      tally_depth_balance hstart ((startRequest_inputs s e a).trans hin) htally
    obtain ⟨-, ⟨-, hhalt, -⟩, -⟩ := tally_runInv hstart htally
    obtain ⟨hempty, -⟩ := hhalt hhalted
    have hone : (s.startRequest e a).depth = 1 := by
      obtain ⟨hrun, -⟩ | ⟨-, hbad, -⟩ | ⟨-, -, hreq⟩ := startRequest_cases s e a
      · exact absurd hrun hr
      · omega
      · rw [hreq, startRun_depth]
    rw [hempty, hone] at hbalance
    exact ⟨by omega, hempty⟩

end Sys2Proof.Machine
end

section
/-!
HACK_PRINT (43_debug): the debug event and the fault of R140, and the gating of R141.
-/

namespace Sys2Proof.Machine

/-! ### The debug port (50_host_interface R160) -/

theorem dbgPort_of_append {s t : State} {v : Value} (h : t.debugTrace = s.debugTrace ++ [v]) :
    dbgPort s t = some (valueBits v) := by
  simp [dbgPort, h]

theorem dbgPort_of_empty {s t : State} (h : t.debugTrace = []) : dbgPort s t = none := by
  simp [dbgPort, h]

/-- Printing a Value moves only the trace, the debug port and the current program counter. -/
theorem emitDebug_advance_frame (s : State) (v : Value) :
    (s.emitDebug v).advance.debugTrace = s.debugTrace ++ [v] ∧
      dbgPort s (s.emitDebug v).advance = some (valueBits v) ∧
      (s.emitDebug v).advance.arena = s.arena ∧ OnlyPcAdvances s (s.emitDebug v).advance (s.depth - 1) ∧
      SameControl s (s.emitDebug v).advance :=
  ⟨rfl, dbgPort_of_append rfl, rfl, onlyPcAdvances_of_frameAt (advance_frameAt (s.emitDebug v)),
    rfl, rfl, rfl, rfl, rfl, rfl⟩

/-! ### The instruction in a ready frame -/

section
variable {s : State} {n : Nat} (h : CurrentReady s n) {a : RegIdx}
include h

theorem exec_hackPrint_of_le (ha : n ≤ a.toNat) :
    exec (.hackPrint a) s = .next (s.enterFault .registerOutOfBounds) := by
  rw [exec, execHackPrint, inCurrentFrame_of_ready h, if_pos ((regOutside_eq_true_of_ready h).2 ha), raise]

theorem exec_hackPrint_of_lt (ha : a.toNat < n) :
    exec (.hackPrint a) s = .next (s.emitDebug (s.reg (s.depth - 1) a)).advance := by
  rw [exec, execHackPrint, inCurrentFrame_of_ready h, if_neg (mt (regOutside_eq_true_of_ready h).1 ha.not_ge),
    State.readReg, State.top]

end

/-! ### HACK_PRINT_PRESENT -/

/-- HACK_PRINT_PRESENT is fixed when the core is built: a load replaces the stores and MAX_DEPTH alone
(50_host_interface R157). -/
theorem step_hackPrintPresent {s t : State} (h : step s = .next t) :
    t.cfg.hackPrintPresent = s.cfg.hackPrintPresent := by
  by_cases hload : ∃ im rest, s.inputs = .load im :: rest
  · obtain ⟨im, rest, hin⟩ := hload
    obtain ⟨-, hstep⟩ := step_next h
    obtain ⟨-, -, rfl⟩ : s.status ≠ .running ∧ im.Wf ∧ t = (s.setInputs rest).setImage im := by
      simpa [hin, hostQuiet] using hstep
    rfl
  · rw [storesReadOnly s t h fun im rest hin => hload ⟨im, rest, hin⟩]

theorem debugTrace_of_coreInv {s : State} (h : CoreInv s) (hp : s.cfg.hackPrintPresent = false) :
    s.debugTrace = [] := by
  obtain ⟨-, -, -, -, -, htrace⟩ := h
  exact htrace hp

/-! ### The statements -/

/-- Settles O18: the fault by `exec_hackPrint_of_le`, the event by `exec_hackPrint_of_lt` and its frame. -/
theorem hackPrintFollowsItsRule : Obligations.HackPrintFollowsItsRule := by
  refine ⟨fun c a x y hm hp => ⟨by simp [decode_of_hackPrint hm, hp], ?line⟩, fun s n a h => ?effect⟩
  case line => exact assemble_of_writesInstr _ (i := .hackPrint a) ⟨rfl, _, rfl, .inr rfl⟩
  case effect =>
    split
    · next ha => exact ⟨_, exec_hackPrint_of_le h ha, onlyFaultEntry_enterFault s _⟩
    · next ha => exact ⟨_, exec_hackPrint_of_lt h (not_le.1 ha), emitDebug_advance_frame s _⟩

/-- Settles O19: present and absent by the decoder's two cases for the byte; the trace by the invariant that
`step_coreInv` keeps, since no step changes HACK_PRINT_PRESENT. -/
theorem hackPrintGating : Obligations.HackPrintGating := by
  refine ⟨fun _ _ => decode_of_hackPrint, fun s w h hr hp hw hop => ?absent,
    fun s t h hp hstep => ?trace⟩
  case absent =>
    obtain ⟨hc, hst, hstack, -⟩ := h
    obtain ⟨hd, hm, -⟩ := currentReady_of_stackInv hc (hstack hr) (hst.1 hr)
    exact ⟨_, engineStep_of_invalid hd hm hw (decode_of_hackPrint_absent hc.1 hop hp), onlyFaultEntry_enterFault s _⟩
  case trace =>
    obtain ⟨hs, -⟩ := runInv_iff.1 h
    have ht : t.debugTrace = [] :=
      debugTrace_of_coreInv (step_coreInv hs hstep) ((step_hackPrintPresent hstep).trans hp)
    exact ⟨debugTrace_of_coreInv hs hp, ht, dbgPort_of_empty ht⟩

end Sys2Proof.Machine
end

section
/-!
The host interface (50_host_interface): what a start request and a load do, the step at a boundary with a host event, and
the ways into Faulted.
-/

namespace Sys2Proof.Machine

/-! ### The start request (50_host_interface R152 to R154) -/

section
variable {s : State} {e : MethodIdx} {a : Value}

theorem startRequest_of_running (hr : s.status = .running) : s.startRequest e a = s :=
  if_pos hr

theorem startRequest_of_lt (hr : s.status ≠ .running) (he : e.toNat < methodCount s.cfg) :
    s.startRequest e a = s.startRun e a :=
  (if_neg hr).trans (if_neg (by rw [methodOutOfBounds_eq_false.2 he]; exact Bool.false_ne_true))

theorem startRequest_of_le (hr : s.status ≠ .running) (he : methodCount s.cfg ≤ e.toNat) :
    s.startRequest e a = s.startFault e :=
  (if_neg hr).trans (if_pos (methodOutOfBounds_eq_true.2 he))

end

/-- Settles O33: by the cases of the request. -/
theorem startAcceptedWhenNotRunning : Obligations.StartAcceptedWhenNotRunning := by
  refine fun s e a => ⟨startRequest_of_running, fun hstopped => ?accepted⟩
  case accepted =>
    have hr : s.status ≠ .running := by obtain h | h := hstopped <;> simp [h]
    split
    · next he => exact startRequest_of_lt hr he
    · next he => exact startRequest_of_le hr (not_lt.1 he)

/-- Settles O32: by the fields of the state that the request answers. -/
theorem startWithBadEntryFaults : Obligations.StartWithBadEntryFaults := by
  intro s e a hr he
  rw [startRequest_of_le hr he]
  exact ⟨rfl, rfl, rfl, rfl, rfl, rfl, rfl, rfl, rfl, rfl⟩

/-! ### The root frame: a push on the empty stack (42_call_return R122) -/

section
variable (s : State) (e : MethodIdx) (a : Value)

@[simp] theorem clearForStart_newBase : s.clearForStart.newBase = 0 := if_pos rfl

theorem startRun_frameAt_zero :
    (s.startRun e a).frameAt 0 = { method := e, pc := 0, ret := 0, wbase := 0 } :=
  pushFrame_frameAt_depth (s := s.clearForStart) (v := a)

theorem startRun_frameAt_of_ne {l : Nat} (hl : l ≠ 0) : (s.startRun e a).frameAt l = s.frameAt l :=
  pushFrame_frameAt_of_ne s.clearForStart e 0 a hl

/-- The root frame's registers are the slots from 0 on (10_state R15). -/
theorem startRun_reg_zero (i : RegIdx) : (s.startRun e a).reg 0 i = (s.startRun e a).slot i.toNat := by
  rw [State.reg, State.slotOf, startRun_frameAt_zero, Nat.zero_add]

theorem startRun_slot_zero (he : 0 < regCount s.cfg e) : (s.startRun e a).slot 0 = a :=
  pushFrame_slot_newBase s.clearForStart e 0 a he

theorem startRun_slot_of_pos {k : Nat} (h0 : 0 < k) (hk : k < regCount s.cfg e) :
    (s.startRun e a).slot k = Value.nil := by
  have h := pushFrame_slot_of_pos s.clearForStart e 0 a h0 hk
  rwa [clearForStart_newBase, Nat.zero_add] at h

theorem startRun_slot_outside {k : Nat} (hk : regCount s.cfg e ≤ k) : (s.startRun e a).slot k = s.slot k :=
  pushFrame_slot_outside s.clearForStart e 0 a (.inr (by rw [clearForStart_newBase, Nat.zero_add]; exact hk))

end

/-- Settles O31: the request begins the run, whose root frame is a push on the empty stack. -/
theorem startBeginsRun : Obligations.StartBeginsRun := by
  intro s e a hr he
  rw [startRequest_of_lt hr he]
  refine ⟨rfl, rfl, rfl, rfl, startRun_frameAt_zero s e a, fun hregs => ?arg, fun j h0 hj => ?others,
    fun _ => startRun_slot_outside s e a, fun _ => startRun_frameAt_of_ne s e a, rfl, rfl, rfl⟩
  case arg =>
    rw [startRun_reg_zero]
    exact startRun_slot_zero s e a hregs
  case others =>
    rw [startRun_reg_zero]
    exact startRun_slot_of_pos s e a h0 hj

/-! ### Loading (50_host_interface R157) -/

section
variable {s : State} {im : Image}

theorem loadImage_of_running (hr : s.status = .running) : s.loadImage im = .refused .loadWhileRunning :=
  if_pos hr

theorem loadImage_of_wf (hr : s.status ≠ .running) (him : im.Wf) : s.loadImage im = .next (s.setImage im) :=
  (if_neg hr).trans (if_pos him)

theorem loadImage_of_not_wf (hr : s.status ≠ .running) (him : ¬ im.Wf) :
    s.loadImage im = .refused .notAConfiguration :=
  (if_neg hr).trans (if_neg him)

end

/-! ### A boundary with a host event (log entry 5) -/

section
variable {s : State} {rest : List HostEvent} (hc : s.cfg.Wf)
include hc

theorem step_of_reset (hin : s.inputs = .reset :: rest) : step s = .next (s.setInputs rest).resetInstance :=
  step_of_turn_host (by rw [turn, if_pos hc, hin])

theorem step_of_start {e : MethodIdx} {a : Value} (hin : s.inputs = .start e a :: rest) :
    step s = .next ((s.setInputs rest).startRequest e a) :=
  step_of_turn_host (by rw [turn, if_pos hc, hin])

theorem step_of_load {im : Image} (hin : s.inputs = .load im :: rest) :
    step s = (s.setInputs rest).loadImage im :=
  step_of_turn_host (by rw [turn, if_pos hc, hin])

end

/-- Settles O34. -/
theorem hostEventsTakeEffect : Obligations.HostEventsTakeEffect :=
  fun _ _ hc => ⟨step_of_reset hc, fun _ _ => step_of_start hc⟩

/-- Settles O37: the load is the whole step, and answers by STATUS and the bounds. -/
theorem loadOnlyBetweenRuns : Obligations.LoadOnlyBetweenRuns := by
  intro s im rest hc hin
  rw [step_of_load hc hin]
  split
  · next hr => exact loadImage_of_running hr
  · next hr =>
    split
    · next him => exact loadImage_of_wf hr him
    · next him => exact loadImage_of_not_wf hr him

/-! ### Into Faulted (50_host_interface R154, 60_exceptions R176, R182) -/

/-- A start request after which the core is Faulted is an accepted one whose ENTRY names no code object. -/
theorem startRequest_faulted {s : State} {e : MethodIdx} {a : Value} (h : (s.startRequest e a).status = .faulted) :
    s.status ≠ .running ∧ methodCount s.cfg ≤ e.toNat ∧ s.startRequest e a = s.startFault e := by
  obtain ⟨hr, hreq⟩ | hbad | ⟨-, -, hreq⟩ := startRequest_cases s e a
  · simp [hreq, hr] at h
  · exact hbad
  · simp [hreq] at h

/-- The engine's step enters Faulted by the fault entry alone: an instruction that completes does not. -/
theorem engineStep_faulted {s t : State} (h : engineStep s = .next t) (hr : s.status = .running)
    (ht : t.status = .faulted) : 0 < s.depth ∧ ∃ c, t = s.enterFault c := by
  obtain ⟨hd, ⟨c, -, hfault⟩ | ⟨i, -, hcomp⟩⟩ := engineStep_running h hr
  · exact ⟨hd, c, hfault⟩
  · obtain ⟨hrun, -⟩ | ⟨hhalt, -⟩ := hcomp.status_depth hr hd
    · simp [hrun] at ht
    · simp [hhalt] at ht

/-- A step that ends in Faulted is a bad start request, or a fault entry in a frame, or leaves a Faulted core its DEPTH and
its record. -/
theorem step_faulted {s t : State} (h : step s = .next t) (ht : t.status = .faulted) :
    (∃ e a rest, BadStart s e a rest ∧ t = (s.setInputs rest).startFault e) ∨
    (hostQuiet s = true ∧ s.status = .running ∧ 0 < s.depth ∧ ∃ c, t = (s.setInputs s.inputs.tail).enterFault c) ∨
    (s.status = .faulted ∧ t.depth = s.depth ∧ t.fault = s.fault) := by
  obtain ⟨rest, -, rfl⟩ | ⟨e, a, rest, hin, rfl⟩ | ⟨im, rest, -, -, -, rfl⟩ | ⟨-, -, rfl⟩ | ⟨hq, hr, he⟩ :=
    (step_next h).2
  · simp at ht
  · obtain ⟨hr, hbad, hreq⟩ := startRequest_faulted ht
    exact .inl ⟨e, a, rest, ⟨hin, hr, hbad⟩, hreq⟩
  · exact .inr (.inr ⟨ht, rfl, rfl⟩)
  · exact .inr (.inr ⟨ht, rfl, rfl⟩)
  · exact .inr (.inl ⟨hq, hr, engineStep_faulted he hr ht⟩)

/-- Faulted with an empty stack comes from a bad start request, or was there before the step: a fault entry finds a frame
on the stack and leaves it there. -/
theorem step_faulted_empty {s t : State} (h : step s = .next t) (ht : t.status = .faulted) (hd : t.depth = 0) :
    (∃ e a rest, BadStart s e a rest ∧
      t.fault = { cause := some .methodIndexOutOfBounds, level := 0, method := e, pc := 0 }) ∨
    (s.status = .faulted ∧ s.depth = 0 ∧ t.fault = s.fault) := by
  obtain ⟨e, a, rest, hbad, rfl⟩ | ⟨-, -, hpos, c, rfl⟩ | ⟨hs, hdepth, hfault⟩ := step_faulted h ht
  · exact .inl ⟨e, a, rest, hbad, rfl⟩
  · exact absurd hd (Nat.ne_of_gt hpos)
  · exact .inr ⟨hs, hdepth ▸ hd, hfault⟩

theorem step_emptyFaultInv {s t : State} (hs : EmptyFaultInv s) (h : step s = .next t) : EmptyFaultInv t := by
  intro ht hd
  obtain ⟨e, a, rest, -, hfault⟩ | ⟨hst, hdepth, hfault⟩ := step_faulted_empty h ht hd <;> rw [hfault]
  · exact ⟨rfl, rfl, rfl⟩
  · exact hs hst hdepth

/-- Settles O58: the three ways of `step_faulted`, of which one was Faulted before and one has a frame on the stack. -/
theorem onlyBadStartFaultsWithEmptyStack : Obligations.OnlyBadStartFaultsWithEmptyStack := by
  refine ⟨fun s t h ht hne => ?enters, fun s t => step_faulted_empty, fun h => by simp [State.reset] at h,
    fun s t => step_emptyFaultInv⟩
  case enters =>
    obtain ⟨e, a, rest, hbad, -⟩ | ⟨hq, hr, hd, c, rfl⟩ | ⟨hs, -⟩ := step_faulted h ht
    · exact .inl ⟨e, a, rest, hbad⟩
    · exact .inr ⟨hq, hr, hd, c, onlyFaultEntry_enterFault _ c⟩
    · exact absurd hs hne

end Sys2Proof.Machine
end

section
/-!
Faults (60_exceptions): the check of the register operands, what a fault entry leaves alone, and the order of the faults
of one step.
-/

namespace Sys2Proof.Machine

/-! ### Register operands at or above the register count (60_exceptions R171) -/

section
variable {s : State} {n : Nat} (h : CurrentReady s n)
include h

theorem exec_call_of_le {a c : RegIdx} {m : MethodIdx} (hac : n ≤ a.toNat ∨ n ≤ c.toNat) :
    exec (.call a m c) s = .next (s.enterFault .registerOutOfBounds) := by
  rw [exec, execCall, inCurrentFrame_of_ready h, if_pos, raise]
  rwa [Bool.or_eq_true, regOutside_eq_true_of_ready h, regOutside_eq_true_of_ready h]

theorem exec_ret_of_le {a : RegIdx} (ha : n ≤ a.toNat) :
    exec (.ret a) s = .next (s.enterFault .registerOutOfBounds) := by
  rw [exec, execRet, inCurrentFrame_of_ready h, if_pos ((regOutside_eq_true_of_ready h).2 ha), raise]

/-- The register operands are checked together, before anything else is looked at. -/
theorem exec_of_registerOperand_le {i : Instr} (hi : ∃ r ∈ registerOperands i, n ≤ r.toNat) :
    exec i s = .next (s.enterFault .registerOutOfBounds) := by
  cases i with
  | move src dst =>
    have hsd : n ≤ src.toNat ∨ n ≤ dst.toNat := by simpa [registerOperands] using hi
    exact exec_move_of_not_lt h (by omega)
  | literal index dest => exact exec_literal_of_le h (by simpa [registerOperands] using hi)
  | call arg method result => exact exec_call_of_le h (by simpa [registerOperands] using hi)
  | ret result => exact exec_ret_of_le h (by simpa [registerOperands] using hi)
  | hackPrint reg => exact exec_hackPrint_of_le h (by simpa [registerOperands] using hi)

end

/-- Settles O21: every instruction by `exec_of_registerOperand_le`. -/
theorem registerOperandOutOfBounds : Obligations.RegisterOperandOutOfBounds :=
  ⟨fun _ _ _ _ _ => ⟨rfl, rfl, rfl, rfl, rfl⟩,
    fun s _ _ h hi => ⟨_, exec_of_registerOperand_le h hi, onlyFaultEntry_enterFault s _⟩⟩

/-! ### A fault entry is all that happens (60_exceptions R176, R180) -/

/-- An instruction that completes leaves STATUS alone, but that the RETURN of the root frame halts. -/
theorem Completes.status {s t : State} {i : Instr} (h : Completes s t i) :
    t.status = s.status ∨ t.status = .halted := by
  cases i with
  | move src dst => obtain ⟨-, -, rfl⟩ := h; exact .inl rfl
  | literal index dest => obtain ⟨-, v, -, rfl⟩ := h; exact .inl rfl
  | call arg method result => obtain ⟨-, -, -, -, -, rfl⟩ := h; exact .inl rfl
  | ret result =>
    obtain ⟨-, ⟨-, rfl⟩ | ⟨-, -, -, rfl⟩⟩ := h
    · exact .inr rfl
    · exact .inl rfl
  | hackPrint reg => obtain ⟨-, rfl⟩ := h; exact .inl rfl

theorem Completes.not_faulted {s t : State} {i : Instr} (h : Completes s t i) (hs : s.status ≠ .faulted) :
    t.status ≠ .faulted := by
  obtain hsame | hhalted := h.status
  · rwa [hsame]
  · simp [hhalted]

/-- Settles O22: an instruction that does not complete enters a fault of its own, by `exec_next`. -/
theorem faultsArePreciseAndListed : Obligations.FaultsArePreciseAndListed := by
  intro s t i hs hexec ht
  obtain ⟨-, ⟨c, hc, rfl⟩ | hcomp⟩ := exec_next hexec
  · exact ⟨c, hc, onlyFaultEntry_enterFault s c⟩
  · exact absurd ht (hcomp.not_faulted hs)

/-- Settles O23: the engine enters Faulted by the fault entry alone, and the port shows the recorded cause. -/
theorem faultEntryIsAllThatHappens : Obligations.FaultEntryIsAllThatHappens := by
  intro s t hr hstep ht
  obtain ⟨-, c, rfl⟩ := engineStep_faulted hstep hr ht
  exact ⟨c, onlyFaultEntry_enterFault s c, rfl⟩

/-! ### The order of the faults (60_exceptions R179) -/

/-- Settles O24: `engineStep_follows_stepFault`; an instruction that completes leaves the fault record alone. -/
theorem faultPriority : Obligations.FaultPriority := by
  intro s hinv hr
  obtain ⟨hc, hst, hstack, -⟩ := hinv
  obtain ⟨c, hfault, hstep⟩ | ⟨hnone, i, t, -, hstep, hcomp⟩ :=
    engineStep_follows_stepFault hc (hstack hr) (hst.1 hr) hr
  · rw [hfault]
    exact ⟨_, hstep, onlyFaultEntry_enterFault s c⟩
  · rw [hnone]
    obtain ⟨-, hkept, -⟩ := hcomp.keeps
    exact ⟨t, hstep, hcomp.not_faulted (by simp [hr]), hkept⟩

/-! ### TypeMismatch (60_exceptions R178) -/

theorem startRequest_typeMismatch {s : State} {e : MethodIdx} {a : Value}
    (h : (s.startRequest e a).fault.cause = some .typeMismatch) : s.fault.cause = some .typeMismatch := by
  obtain ⟨-, hreq⟩ | ⟨-, -, hreq⟩ | ⟨-, -, hreq⟩ := startRequest_cases s e a
  · rwa [hreq] at h
  · simp [hreq] at h
  · simp [hreq, FaultRecord.clear] at h

theorem engineStep_typeMismatch {s t : State} (hstep : engineStep s = .next t) (hr : s.status = .running)
    (h : t.fault.cause = some .typeMismatch) : s.fault.cause = some .typeMismatch := by
  obtain ⟨-, ⟨c, hne, rfl⟩ | ⟨i, -, hcomp⟩⟩ := engineStep_running hstep hr
  · exact absurd (Option.some.inj h) hne
  · obtain ⟨-, hkept, -⟩ := hcomp.keeps
    rwa [hkept] at h

/-- Settles O53: a reset clears the record, a load and the idle step leave it alone, and neither a start request nor the
engine records this cause. -/
theorem typeMismatchNeverRaised : Obligations.TypeMismatchNeverRaised := by
  intro s t hstep h
  obtain ⟨rest, -, rfl⟩ | ⟨e, a, rest, -, rfl⟩ | ⟨im, rest, -, -, -, rfl⟩ | ⟨-, -, rfl⟩ | ⟨-, hr, he⟩ :=
    (step_next hstep).2
  · simp [FaultRecord.clear] at h
  · exact startRequest_typeMismatch (s := s.setInputs rest) h
  · exact h
  · exact h
  · exact engineStep_typeMismatch (s := s.setInputs s.inputs.tail) he hr h

end Sys2Proof.Machine
end

section
/-!
The words of the test vectors (95_test_vectors section 2) under the default configuration.
-/

namespace Sys2Proof

theorem wf_default_opcodes : Config.default.opcodes.Wf := by decide

/-- Settles O6: each word's opcode byte selects the decoder's case, and its fields are the operands beside it; no opcode
of the default map is `0x00` or `0xFF`. -/
theorem vectorWordsDecode : Obligations.VectorWordsDecode := by
  refine ⟨?move, ?literal, ?call, ?ret, ?hackPrint, ?zero, ?ones⟩
  case move => exact decode_of_move rfl
  case literal => exact decode_of_literal wf_default_opcodes rfl
  case call => exact decode_of_call wf_default_opcodes rfl
  case ret => exact decode_of_ret wf_default_opcodes rfl
  case hackPrint => exact decode_of_hackPrint wf_default_opcodes rfl rfl
  case zero => exact decode_eq_invalid_iff.2 (by decide)
  case ones => exact decode_eq_invalid_iff.2 (by decide)

end Sys2Proof
end
